-- ==== Sys2Proof/Word.lean ====
section
/-! DEFINITION. The widths of the Duck Machine: the 32-bit word, the 4-bit condition mask and the register
index, with the values of them that hold under any numbering of bits (spec/00_scope.md R11, R12). -/

namespace Sys2Proof

/-- A 32-bit pattern: a register's contents, an instruction word, a memory word (R12, R20, R41). Read as a signed
integer by `BitVec.toInt`, which is the spec's `sint32`; made from one by `BitVec.ofInt 32`, its `pat32` (R13). -/
abbrev Word := BitVec 32

/-- A mask over the four condition bits Z, M, P, V (R90). It is both an instruction's predicate and COND (R92). -/
abbrev CondFlag := BitVec 4

/-- ALWAYS: "all four bits set" (R91). -/
def CondFlag.always : CondFlag := 0b1111#4

/-- NEVER: "no bits set" (R91). -/
def CondFlag.never : CondFlag := 0b0000#4

/-- A register index, 0 to 15 (R20, R64). -/
abbrev Reg := Fin 16

/-- Register 15 is the program counter (R25, R31). -/
abbrev pcReg : Reg := 15

end Sys2Proof
end

