-- ==== Sys2Proof/Config.lean ====
section
/-! DEFINITION. What the spec gathers as configuration: the closed set of opcodes and the shape of the encoding
record (spec/00_scope.md R11: "A model should hold these five in one configuration record": OPCODE_MAP, COND_MAP,
REG_ORDER, OPCODE_BITS and the bit positions). The one record of that shape, with every value, is `encoding` in
Sys2Proof/Machine/Encoding.lean. MEM_WORDS, the open parameter, is a field of the state (log 4), so that every
statement holds for every memory size. -/

namespace Sys2Proof

/-- The closed enumeration of opcodes (R15, R62). -/
inductive OpCode where
  | add
  | sub
  | mul
  | div
  | load
  | store
  | halt
  deriving DecidableEq, Repr

/-- The whole enumeration, in the order the document lists it (R62). -/
def OpCode.all : List OpCode := [.add, .sub, .mul, .div, .load, .store, .halt]

/-- OPCODE_MAP: the number that selects each opcode (R11, R62). -/
structure OpcodeMap where
  add : Nat
  sub : Nat
  mul : Nat
  div : Nat
  load : Nat
  store : Nat
  halt : Nat
  deriving DecidableEq, Repr

/-- COND_MAP: the bit of the 4-bit mask each primitive flag takes (R11, R63). -/
structure CondMap where
  z : CondFlag
  m : CondFlag
  p : CondFlag
  v : CondFlag
  deriving DecidableEq, Repr

/-- Everything about the encoding that R11 asks to be correctable in one place: the two numberings, and where each field
of the one instruction format lies, by its lowest bit and its width (R61). -/
structure Encoding where
  /-- OPCODE_MAP. -/
  opcodes : OpcodeMap
  /-- COND_MAP. -/
  flags : CondMap
  /-- Lowest bit of the opcode field. -/
  opPos : Nat
  /-- OPCODE_BITS. -/
  opBits : Nat
  /-- Lowest bit of the predicate field. -/
  predPos : Nat
  /-- COND_BITS. -/
  predBits : Nat
  /-- Lowest bit of src_reg1 (REG_ORDER). -/
  src1Pos : Nat
  /-- Lowest bit of src_reg2 (REG_ORDER). -/
  src2Pos : Nat
  /-- Lowest bit of target_reg (REG_ORDER). -/
  targetPos : Nat
  /-- REG_BITS. -/
  regBits : Nat
  /-- Lowest bit of the offset field. -/
  offsetPos : Nat
  /-- OFFSET_BITS. -/
  offsetBits : Nat
  deriving DecidableEq, Repr

end Sys2Proof
end

