-- ==== Sys2Proof/Machine/Encoding.lean ====
section
/-! DEFINITION. The configuration record of spec/00_scope.md R11, with its values: the one place where OPCODE_MAP, COND_MAP,
REG_ORDER, OPCODE_BITS and the bit positions stand. The decoder, the encoder, the offset range and the four condition bits
all read it. Log 9: these numbers are the spec's own reading and are not shown to be the repository's. -/

namespace Sys2Proof

/-- The spec's encoding: the numbering of R62, the condition bits of R63, the fields of R61. -/
def encoding : Encoding where
  opcodes := { add := 0, sub := 1, mul := 2, div := 3, load := 4, store := 5, halt := 6 }
  flags := { z := 0b0001#4, m := 0b0010#4, p := 0b0100#4, v := 0b1000#4 }
  opPos := 27
  opBits := 5
  predPos := 23
  predBits := 4
  src1Pos := 19
  src2Pos := 15
  targetPos := 11
  regBits := 4
  offsetPos := 0
  offsetBits := 11

end Sys2Proof
end

