-- ==== Sys2Proof/Machine/Flags.lean ====
section
/-! DEFINITION. Block CFA, the condition-flag mask algebra, and the flag of a value (spec/40_condflag_predication.md R90 to
R95, spec/41_alu.md R108). -/

namespace Sys2Proof

/-- Z, zero: its bit in COND_MAP (R11, R63; log 9). -/
def CondFlag.Z : CondFlag := encoding.flags.z

/-- M, minus: its bit in COND_MAP (R63). -/
def CondFlag.M : CondFlag := encoding.flags.m

/-- P, positive: its bit in COND_MAP (R63). -/
def CondFlag.P : CondFlag := encoding.flags.p

/-- V, overflow or error: its bit in COND_MAP (R63). -/
def CondFlag.V : CondFlag := encoding.flags.v

/-- The set union of two masks (R93). -/
def CondFlag.union (a b : CondFlag) : CondFlag := a ||| b

/-- Whether two masks have a bit in common (R94): the predication test (R100). -/
def CondFlag.overlaps (a b : CondFlag) : Bool := decide (a &&& b ≠ CondFlag.never)

/-- `flagof(r)`: Z if r = 0, M if r < 0, P if r > 0 (R108). -/
def flagOf (r : Int) : CondFlag := if r = 0 then CondFlag.Z else if r < 0 then CondFlag.M else CondFlag.P

end Sys2Proof
end

