-- ==== Sys2Proof/Machine/Alu.lean ====
section
/-! DEFINITION. Block ALU: a total function of the opcode and two exact integers, with no state (spec/41_alu.md R105 to
R118). -/

namespace Sys2Proof

/-- `fits32(v)`: v is a 32-bit signed integer (R13). -/
abbrev Fits32 (v : Int) : Prop := -2147483648 ≤ v ∧ v ≤ 2147483647

/-- `floordiv(a, b)`, the quotient rounded toward minus infinity (R13, R113). -/
def floorDiv (a b : Int) : Int := Int.fdiv a b

/-- `e(op, in1, in2)`, the exact value over the unbounded integers; none for a division by zero (R107). -/
def exactValue (op : OpCode) (in1 in2 : Int) : Option Int :=
  match op with
  | .add => some (in1 + in2)
  | .sub => some (in1 - in2)
  | .mul => some (in1 * in2)
  | .div => if in2 = 0 then none else some (floorDiv in1 in2)
  | .load => some (in1 + in2)
  | .store => some (in1 + in2)
  | .halt => some 0

/-- `alu(op, in1, in2)`, R109: the exact value and its flag, or (0, V) when there is no exact value (R110) or it does not
fit in 32 bits (R111). -/
def alu (op : OpCode) (in1 in2 : Int) : Word × CondFlag :=
  match exactValue op in1 in2 with
  | none => (0, CondFlag.V)
  | some e => if Fits32 e then (BitVec.ofInt 32 e, flagOf e) else (0, CondFlag.V)

end Sys2Proof
end

