-- ==== Sys2Proof/Syntax.lean ====
section
/-! DEFINITION. The seven instructions, one constructor per row of spec/opcode_table.json. Every constructor carries the
five fields of the one format (spec/00_scope.md R15): predicate, src_reg1, src_reg2, target_reg, offset. -/

namespace Sys2Proof

/-- A decoded instruction (R15, R68: every opcode carries all five fields, the ones it ignores too). The register
fields and the predicate cannot be out of range; the offset can, and WellFormed.lean says when it is not. -/
inductive Instr where
  /-- ADD: x[target] <- x[src1] + (offset + x[src2]) (R141). -/
  | add (pred : CondFlag) (src1 src2 target : Reg) (offset : Int)
  /-- SUB: x[target] <- x[src1] - (offset + x[src2]) (R142). -/
  | sub (pred : CondFlag) (src1 src2 target : Reg) (offset : Int)
  /-- MUL: x[target] <- x[src1] * (offset + x[src2]) (R143). -/
  | mul (pred : CondFlag) (src1 src2 target : Reg) (offset : Int)
  /-- DIV: x[target] <- floor(x[src1] / (offset + x[src2])) (R144). -/
  | div (pred : CondFlag) (src1 src2 target : Reg) (offset : Int)
  /-- LOAD: x[target] <- the word at x[src1] + offset + x[src2] (R151). -/
  | load (pred : CondFlag) (src1 src2 target : Reg) (offset : Int)
  /-- STORE: the word at x[src1] + offset + x[src2] <- x[target] (R152). -/
  | store (pred : CondFlag) (src1 src2 target : Reg) (offset : Int)
  /-- HALT: end the run; the register fields and the offset are ignored (R160). -/
  | halt (pred : CondFlag) (src1 src2 target : Reg) (offset : Int)
  deriving DecidableEq, Repr

/-- The opcode of an instruction. -/
def Instr.op : Instr → OpCode
  | .add _ _ _ _ _ => .add
  | .sub _ _ _ _ _ => .sub
  | .mul _ _ _ _ _ => .mul
  | .div _ _ _ _ _ => .div
  | .load _ _ _ _ _ => .load
  | .store _ _ _ _ _ => .store
  | .halt _ _ _ _ _ => .halt

/-- The predicate field. -/
def Instr.pred : Instr → CondFlag
  | .add p _ _ _ _ | .sub p _ _ _ _ | .mul p _ _ _ _ | .div p _ _ _ _ | .load p _ _ _ _ | .store p _ _ _ _
  | .halt p _ _ _ _ => p

/-- The src_reg1 field. -/
def Instr.src1 : Instr → Reg
  | .add _ a _ _ _ | .sub _ a _ _ _ | .mul _ a _ _ _ | .div _ a _ _ _ | .load _ a _ _ _ | .store _ a _ _ _
  | .halt _ a _ _ _ => a

/-- The src_reg2 field. -/
def Instr.src2 : Instr → Reg
  | .add _ _ b _ _ | .sub _ _ b _ _ | .mul _ _ b _ _ | .div _ _ b _ _ | .load _ _ b _ _ | .store _ _ b _ _
  | .halt _ _ b _ _ => b

/-- The target_reg field. -/
def Instr.target : Instr → Reg
  | .add _ _ _ t _ | .sub _ _ _ t _ | .mul _ _ _ t _ | .div _ _ _ t _ | .load _ _ _ t _ | .store _ _ _ t _
  | .halt _ _ _ t _ => t

/-- The offset field, as the signed integer it stands for. -/
def Instr.offset : Instr → Int
  | .add _ _ _ _ k | .sub _ _ _ _ k | .mul _ _ _ _ k | .div _ _ _ _ k | .load _ _ _ _ k | .store _ _ _ _ k
  | .halt _ _ _ _ k => k

/-- The instruction with a given opcode and given fields. -/
def OpCode.instr (op : OpCode) (pred : CondFlag) (src1 src2 target : Reg) (offset : Int) : Instr :=
  match op with
  | .add => .add pred src1 src2 target offset
  | .sub => .sub pred src1 src2 target offset
  | .mul => .mul pred src1 src2 target offset
  | .div => .div pred src1 src2 target offset
  | .load => .load pred src1 src2 target offset
  | .store => .store pred src1 src2 target offset
  | .halt => .halt pred src1 src2 target offset

end Sys2Proof
end

