-- ==== Sys2Proof/Machine/State.lean ====
section
/-! DEFINITION. Everything the machine holds, as plain data, and its value at reset (spec/10_state.md R20 to R34,
spec/20_memory.md R40 to R42, spec/60_exceptions.md R174, R180). No field is a function. -/

namespace Sys2Proof.Machine

/-- Which access a MemoryFault is of (R172, R174). -/
inductive Access where
  | fetch
  | load
  | store
  deriving DecidableEq, Repr

/-- The fault record `(kind, access, a, info)` of R174. Addresses are exact integers: they may be negative or exceed
32 bits (R172). -/
inductive FaultRecord where
  /-- DecodeFault: the word `w` at address `a` has an unknown opcode (R171). Raised by the decode stage of a step. -/
  | decode (a : Int) (w : Word)
  /-- MemoryFault: the instruction at `a` made an access to `info`, which is no valid address (R172). Raised by the
  fetch, by LOAD and by STORE. -/
  | memory (access : Access) (a info : Int)
  deriving DecidableEq, Repr

/-- STATUS, the three-valued run status (R29). -/
inductive Status where
  | ready
  | halted
  | faulted (record : FaultRecord)
  deriving DecidableEq, Repr

/-- `Observe(a, w, ins)`: one step-observation event (R129, R180). -/
structure Event where
  /-- The address the word was fetched from. -/
  addr : Int
  /-- The raw word. -/
  word : Word
  /-- The decoded instruction. -/
  ins : Instr
  deriving DecidableEq, Repr

/-- Memory as word address and word, in the canonical form `Memory.wf` (Sys2Proof/Machine/Memory.lean). The cell is a
word because "the byte is not a unit of this machine" (R41; log 5). -/
abbrev Memory := List (Nat × Word)

/-- What a word of memory that nothing has written reads as. DESIGN CHOICE, unsafe (log 3): the spec leaves it
unspecified (R197, D29). -/
def unlistedWord : Word := 0

/-- The whole machine. -/
structure State where
  /-- x[1] to x[15], register `i` in slot `i - 1`; x[0] holds no state (R20 to R25). Reached only through `State.get`
  and `State.put`. -/
  regs : Vector Word 15
  /-- COND (R27). -/
  cond : CondFlag
  /-- STATUS (R29); HALTED is `State.halted`. -/
  status : Status
  /-- MEM_WORDS - 1, the last valid address: MEM_WORDS lies between 1 and 2^31 - 1 (R42, D3). No step changes it. -/
  lastAddr : Fin 2147483647
  /-- The memory behind the port (R40, R41). -/
  mem : Memory
  /-- The model's own field (log 8): the events sent on the observer port, newest first (R180). -/
  trace : List Event
  deriving DecidableEq, Repr

/-- MEM_WORDS, the number of words the memory holds (R11, R42). -/
def State.memWords (s : State) : Nat := s.lastAddr.val + 1

/-- HALTED, "true exactly when STATUS = halted" (R28, R29). -/
def State.halted (s : State) : Bool := decide (s.status = .halted)

/-- Why no step is taken. There is no other fault: DecodeFault and MemoryFault are entered as states, STATUS becoming
faulted(record), as R174 describes. -/
inductive Fault where
  /-- Raised by `step` when STATUS is halted: "the engine takes no step" (R136, U20). Safe: the machine is stuck there
  until the host calls run. -/
  | halted
  /-- Raised by `step` when STATUS is faulted: no step follows a fault in the same run (R136, R179). It hands over the
  record, as R174 says. Safe, as above. -/
  | faulted (record : FaultRecord)
  deriving DecidableEq, Repr

/-- An instruction without a meaning. -/
inductive Refusal where
  /-- Raised by an arm of `exec` whose instruction has no meaning yet; no arm does. Safe. -/
  | notModelled (mnemonic : String)
  deriving DecidableEq, Repr

/-- The machine at power-on (R34, R190), for each value of what the spec leaves open there: the registers x[1] to x[15],
the memory's contents and its size. -/
def State.powerOn (regs : Vector Word 15) (lastAddr : Fin 2147483647) (mem : Memory) : State where
  regs := regs
  cond := CondFlag.always
  status := .ready
  lastAddr := lastAddr
  mem := mem
  trace := []

/-- The machine right after reset. COND, STATUS and HALTED are the spec's (R34). The registers and the PC 0, no memory
word set, and 2^31 - 1 words of memory are DESIGN CHOICES (log 1, 2, 3, 4). -/
def State.reset : State := State.powerOn (Vector.replicate 15 0) ⟨2147483646, by decide⟩ []

end Sys2Proof.Machine
end

