-- ==== Sys2Proof/Machine/Memory.lean ====
section
/-! DEFINITION. The word memory: `get`, `put` and the canonical form (spec/20_memory.md R40, R47). -/

namespace Sys2Proof.Machine

/-- `get(address)`: the word last put there, or what an unlisted word reads as. -/
def Memory.get : Memory → Nat → Word
  | [], _ => unlistedWord
  | c :: m, a => if c.1 = a then c.2 else Memory.get m a

/-- The memory without any entry for an address. -/
def Memory.erase (m : Memory) (a : Nat) : Memory := m.filter (fun c => c.1 ≠ a)

/-- The memory with an entry put before the first entry of a higher address. -/
def Memory.insert : Memory → Nat → Word → Memory
  | [], a, w => [(a, w)]
  | c :: m, a, w => if a < c.1 then (a, w) :: c :: m else c :: Memory.insert m a w

/-- `put(address, word)`: any entry for the address goes, and a word that differs from what an unlisted word reads as is
listed at its place. -/
def Memory.put (m : Memory) (a : Nat) (w : Word) : Memory :=
  if w = unlistedWord then Memory.erase m a else Memory.insert (Memory.erase m a) a w

/-- The canonical form: addresses strictly rise, and no entry equals what an unlisted word reads as. Two memories in
this form that read alike are equal. -/
abbrev Memory.wf (m : Memory) : Prop :=
  m.Pairwise (fun c d => c.1 < d.1) ∧ ∀ c ∈ m, c.2 ≠ unlistedWord

end Sys2Proof.Machine
end

