-- ==== Sys2Proof/Machine/Ops.lean ====
section
/-! DEFINITION. The named operations over the state: block RF's get and put, the PC, the memory port, taking a fault, the
observer port, and predication. -/

namespace Sys2Proof.Machine

/-- `get(i)` of block RF: register 0 reads 0 always (R8, R22). -/
def State.get (s : State) (i : Reg) : Word := if h : i = 0 then 0 else s.regs[i.val - 1]

/-- `put(i, v)` of block RF: a write to register 0 is discarded (R8, R22). -/
def State.put (s : State) (i : Reg) (v : Word) : State :=
  if h : i = 0 then s else { s with regs := s.regs.set (i.val - 1) v }

/-- `a`, the value of x[15] as a signed integer (R31, R126). -/
def State.pc (s : State) : Int := (s.get pcReg).toInt

/-- COND <- c. Only an executed ADD, SUB, MUL or DIV and the start of a run do this (R27). -/
def State.setCond (s : State) (c : CondFlag) : State := { s with cond := c }

/-- STATUS <- st (R29). -/
def State.setStatus (s : State) (st : Status) : State := { s with status := st }

/-- The memory behind the port is replaced. -/
def State.setMem (s : State) (m : Memory) : State := { s with mem := m }

/-- x[15] <- a + 1 (R130, R132). After a fetch from a valid address the sum fits and does not wrap (R31). -/
def State.advancePc (s : State) : State := s.put pcReg (s.get pcReg + 1)

/-- A valid address, 0 to MEM_WORDS - 1 (R42). -/
abbrev State.ValidAddr (s : State) (addr : Int) : Prop := 0 ≤ addr ∧ addr ≤ s.lastAddr.val

/-- `MemRead(addr, 1)`; none for an address that is not valid, where the port answers with a fault (R40, R43). -/
def State.memRead (s : State) (addr : Int) : Option Word :=
  if s.ValidAddr addr then some (s.mem.get addr.toNat) else none

/-- `MemWrite(addr, 1, w)`; none for an address that is not valid, and then nothing is written (R40, R43). -/
def State.memWrite (s : State) (addr : Int) (w : Word) : Option State :=
  if s.ValidAddr addr then some (s.setMem (s.mem.put addr.toNat w)) else none

/-- `raise`: the step ends here with its earlier effects kept, and STATUS becomes faulted(record) (R174). Nothing is
saved and control goes nowhere (R177); there is no return from it but the host's `run` (R179). -/
def State.raise (s : State) (record : FaultRecord) : State := s.setStatus (.faulted record)

/-- STATUS <- halted (R160). -/
def State.halt (s : State) : State := s.setStatus .halted

/-- `emit Observe(a, w, ins)`: an output only, which no rule reads (R129, R180; log 8). -/
def State.observe (s : State) (e : Event) : State := { s with trace := e :: s.trace }

/-- The label of a fault in R174's table, 1 to 4; no instruction can read it. -/
def FaultRecord.code : FaultRecord → Nat
  | .decode _ _ => 1
  | .memory .fetch _ _ => 2
  | .memory .load _ _ => 3
  | .memory .store _ _ => 4

/-- The address of the instruction a fault record is about, its `a` (R174). -/
def FaultRecord.address : FaultRecord → Int
  | .decode a _ => a
  | .memory _ a _ => a

/-- The predication test around an instruction's own effect (R100): a skipped instruction advances the PC and does nothing
else (R130). Every instruction ends in a next state. -/
def predicated (pred : CondFlag) (body : State → State) (s : State) : Host.Outcome State Fault Refusal :=
  .next (if CondFlag.overlaps pred s.cond then body s else s.advancePc)

end Sys2Proof.Machine
end

