-- ==== Sys2Proof/Machine/Operands.lean ====
section
/-! DEFINITION. The one operand form of the machine (spec/42_step.md R131) and the data address (spec/44_load_store.md
R150). Both are read before anything is written (R134 a), so a source r15 reads the instruction's own address (R134 b). -/

namespace Sys2Proof.Machine

/-- `left`, the value of src_reg1 (R131). -/
def State.left (s : State) (src1 : Reg) : Int := (s.get src1).toInt

/-- `right = offset + x[src2]`, exact and never wrapped (R131, D12). -/
def State.right (s : State) (src2 : Reg) (offset : Int) : Int := offset + (s.get src2).toInt

/-- The address a LOAD or STORE sends to the memory port: the ALU's sum, or, when the ALU reports V, the exact sum as the
offending address of a MemoryFault (R117, R125, R150). -/
def State.dataAddress (s : State) (op : OpCode) (src1 src2 : Reg) (offset : Int) : Except Int Int :=
  let result := alu op (s.left src1) (s.right src2 offset)
  if result.2 = CondFlag.V then .error (s.left src1 + s.right src2 offset) else .ok result.1.toInt

end Sys2Proof.Machine
end

