-- ==== Sys2Proof/Machine/Arithmetic.lean ====
section
/-! DEFINITION. ADD, SUB, MUL, DIV (spec/43_arithmetic.md R140 to R145). -/

namespace Sys2Proof.Machine

/-- What an executed ADD, SUB, MUL or DIV does, in R140's order: operands, ALU, PC advance, register write (lost for r0, a
jump for r15), COND. -/
def State.arithmetic (op : OpCode) (src1 src2 target : Reg) (offset : Int) (s : State) : State :=
  let result := alu op (s.left src1) (s.right src2 offset)
  (s.advancePc.put target result.1).setCond result.2

/-- ADD, R141. -/
def execAdd (pred : CondFlag) (src1 src2 target : Reg) (offset : Int) (s : State) : Host.Outcome State Fault Refusal :=
  predicated pred (State.arithmetic .add src1 src2 target offset) s

/-- SUB, R142. -/
def execSub (pred : CondFlag) (src1 src2 target : Reg) (offset : Int) (s : State) : Host.Outcome State Fault Refusal :=
  predicated pred (State.arithmetic .sub src1 src2 target offset) s

/-- MUL, R143. -/
def execMul (pred : CondFlag) (src1 src2 target : Reg) (offset : Int) (s : State) : Host.Outcome State Fault Refusal :=
  predicated pred (State.arithmetic .mul src1 src2 target offset) s

/-- DIV, R144. -/
def execDiv (pred : CondFlag) (src1 src2 target : Reg) (offset : Int) (s : State) : Host.Outcome State Fault Refusal :=
  predicated pred (State.arithmetic .div src1 src2 target offset) s

end Sys2Proof.Machine
end

