-- ==== Sys2Proof/Machine/Control.lean ====
section
/-! DEFINITION. HALT (spec/45_control.md R160), the only instruction that acts on the machine rather than on data (R166). A
jump is any other instruction whose target is r15 (R161). -/

namespace Sys2Proof.Machine

/-- HALT, R160: the PC advances and STATUS becomes halted. The two sources are read and the ALU's (0, Z) is made, and all
are unused (R116, R160), so they do not appear. -/
def execHalt (pred : CondFlag) (_src1 _src2 _target : Reg) (_offset : Int) (s : State) : Host.Outcome State Fault Refusal :=
  predicated pred (fun s => s.advancePc.halt) s

end Sys2Proof.Machine
end

