-- ==== Sys2Proof/Machine/LoadStore.lean ====
section
/-! DEFINITION. LOAD and STORE (spec/44_load_store.md R150 to R154). -/

namespace Sys2Proof.Machine

/-- What an executed LOAD does (R151): the address from the old registers, the PC advance, then the read, whose word goes
to the target (lost for r0, a jump for r15). An address that is not valid raises MemoryFault with the PC advanced and
the target unwritten. -/
def State.loadWord (src1 src2 target : Reg) (offset : Int) (s : State) : State :=
  match s.dataAddress .load src1 src2 offset with
  | .error ea => s.advancePc.raise (.memory .load s.pc ea)
  | .ok ea =>
    match s.advancePc.memRead ea with
    | none => s.advancePc.raise (.memory .load s.pc ea)
    | some w => s.advancePc.put target w

/-- What an executed STORE does (R152). The stored register is read after the PC advance, so r15 stores a + 1 (R134 c). -/
def State.storeWord (src1 src2 target : Reg) (offset : Int) (s : State) : State :=
  match s.dataAddress .store src1 src2 offset with
  | .error ea => s.advancePc.raise (.memory .store s.pc ea)
  | .ok ea =>
    match s.advancePc.memWrite ea (s.advancePc.get target) with
    | none => s.advancePc.raise (.memory .store s.pc ea)
    | some t => t

/-- LOAD, R151. -/
def execLoad (pred : CondFlag) (src1 src2 target : Reg) (offset : Int) (s : State) : Host.Outcome State Fault Refusal :=
  predicated pred (State.loadWord src1 src2 target offset) s

/-- STORE, R152. -/
def execStore (pred : CondFlag) (src1 src2 target : Reg) (offset : Int) (s : State) : Host.Outcome State Fault Refusal :=
  predicated pred (State.storeWord src1 src2 target offset) s

end Sys2Proof.Machine
end

