-- ==== Sys2Proof/Machine/Dispatch.lean ====
section
/-! DEFINITION. One arm per instruction (spec/42_step.md R133: the dispatch is exhaustive and has no default arm). -/

namespace Sys2Proof.Machine

/-- An instruction that was fetched and decoded: the predication test, the operands, the ALU, the PC advance and the
application (stages 4 to 6 of R125). -/
def exec (i : Instr) (s : State) : Host.Outcome State Fault Refusal :=
  match i with
  | .add pred src1 src2 target offset => Sys2Proof.Machine.execAdd pred src1 src2 target offset s
  | .sub pred src1 src2 target offset => Sys2Proof.Machine.execSub pred src1 src2 target offset s
  | .mul pred src1 src2 target offset => Sys2Proof.Machine.execMul pred src1 src2 target offset s
  | .div pred src1 src2 target offset => Sys2Proof.Machine.execDiv pred src1 src2 target offset s
  | .load pred src1 src2 target offset => Sys2Proof.Machine.execLoad pred src1 src2 target offset s
  | .store pred src1 src2 target offset => Sys2Proof.Machine.execStore pred src1 src2 target offset s
  | .halt pred src1 src2 target offset => Sys2Proof.Machine.execHalt pred src1 src2 target offset s

end Sys2Proof.Machine
end

