-- ==== Sys2Proof/WellFormed.lean ====
section
/-! DEFINITION. When an instruction's fields are in range (spec/00_scope.md R15, spec/30_encoding.md R65, R69). The
predicate and the register indices are in range by their types; the offset is checked here. -/

namespace Sys2Proof

/-- The range of the two's-complement offset field of OFFSET_BITS bits: with the spec's 11, exactly -1024 to 1023 (R11,
R65, C10). -/
abbrev OffsetInRange (offset : Int) : Prop :=
  -((2 ^ (encoding.offsetBits - 1) : Nat) : Int) ≤ offset ∧ offset < ((2 ^ (encoding.offsetBits - 1) : Nat) : Int)

/-- Every field of the instruction is in range, for each of the seven opcodes alike (R68). -/
abbrev Instr.WellFormed (i : Instr) : Prop := OffsetInRange i.offset

end Sys2Proof
end

