-- ==== Sys2Proof/Decode.lean ====
section
/-! DEFINITION. Block DEC: the decoder (total on every 32-bit word, rejecting an unknown opcode by name) and the encoder
(spec/30_encoding.md R60 to R71), both over the one configuration record `encoding` (R11). -/

namespace Sys2Proof

/-- The number of an opcode (`num` in R69), from OPCODE_MAP. -/
def opcodeNumber : OpCode → Nat
  | .add => encoding.opcodes.add
  | .sub => encoding.opcodes.sub
  | .mul => encoding.opcodes.mul
  | .div => encoding.opcodes.div
  | .load => encoding.opcodes.load
  | .store => encoding.opcodes.store
  | .halt => encoding.opcodes.halt

/-- The opcode with a given number, by the same OPCODE_MAP; none for an opcode value outside the known set (R62, R67). -/
def opcodeOfNumber (n : Nat) : Option OpCode := OpCode.all.find? (fun op => opcodeNumber op == n)

/-- `w[pos + len - 1 : pos]` as an unsigned integer (R12). -/
def bitField (w : Word) (pos len : Nat) : Nat := w.toNat / 2 ^ pos % 2 ^ len

/-- The two's-complement value of a field of `len` bits; `sext_11` is `signExtend 11` (R13, R65). -/
def signExtend (len n : Nat) : Int := if n < 2 ^ (len - 1) then n else n - 2 ^ len

/-- Why a word is no instruction (R67, R68: there is one reason and no other). -/
inductive DecodeError where
  /-- The opcode field holds a number, 7 to 31, that is no opcode's. Raised by `decode`; the engine turns it into the
  spec's DecodeFault. Safe: the word never runs. -/
  | unknownOpcode (op : Nat)
  deriving DecidableEq, Repr

/-- `decode(w)`, R66: total, a function of the word alone; the fields an opcode does not use are decoded and not
checked (R68). -/
def decode (w : Word) : Except DecodeError Instr :=
  match opcodeOfNumber (bitField w encoding.opPos encoding.opBits) with
  | none => .error (.unknownOpcode (bitField w encoding.opPos encoding.opBits))
  | some op =>
    .ok (op.instr
      (BitVec.ofNat 4 (bitField w encoding.predPos encoding.predBits))
      (Fin.ofNat 16 (bitField w encoding.src1Pos encoding.regBits))
      (Fin.ofNat 16 (bitField w encoding.src2Pos encoding.regBits))
      (Fin.ofNat 16 (bitField w encoding.targetPos encoding.regBits))
      (signExtend encoding.offsetBits (bitField w encoding.offsetPos encoding.offsetBits)))

/-- The sum of R69 over field values that fit their fields: every field at its place, the offset modulo 2 to the
width of its field. -/
def packFields (op pred src1 src2 target : Nat) (offset : Int) : Word :=
  BitVec.ofNat 32 (op * 2 ^ encoding.opPos + pred * 2 ^ encoding.predPos + src1 * 2 ^ encoding.src1Pos
    + src2 * 2 ^ encoding.src2Pos + target * 2 ^ encoding.targetPos
    + (offset % 2 ^ encoding.offsetBits).toNat * 2 ^ encoding.offsetPos)

/-- The encoder over plain numbers: "For a field out of range `encode` is not defined and a tool refuses the
instruction; it never truncates silently" (R69, D25). -/
def encodeFields (op pred src1 src2 target : Nat) (offset : Int) : Option Word :=
  if (opcodeOfNumber op).isSome ∧ pred < 2 ^ encoding.predBits ∧ src1 < 2 ^ encoding.regBits
      ∧ src2 < 2 ^ encoding.regBits ∧ target < 2 ^ encoding.regBits ∧ OffsetInRange offset then
    some (packFields op pred src1 src2 target offset)
  else none

/-- `encode(ins)`, R69. -/
def encode (i : Instr) : Option Word :=
  encodeFields (opcodeNumber i.op) i.pred.toNat i.src1 i.src2 i.target i.offset

/-- The instruction word whose low `nbits` bits are `w`'s and whose other bits are 0. Every instruction is exactly one
32-bit word (R60), and bit 31 of the memory word is bit 31 of the instruction, so no byte order enters (R45). -/
def tableWord (nbits w : Nat) : Word := BitVec.ofNat 32 (w % 2 ^ nbits)

/-- The instruction the decoder reads from an instruction word numbered as spec/opcode_table.json numbers it; none where
it refuses the word, and for a width no instruction has. -/
def decodeTableWord (nbits w : Nat) : Option Instr :=
  if nbits ≤ 32 then (decode (tableWord nbits w)).toOption else none

end Sys2Proof
end

