-- ==== Sys2Proof/Machine/Fetch.lean ====
section
/-! DEFINITION. Stages 1 to 3 of a step: fetch and decode, with their faults in R176's order (spec/42_step.md R126 to
R129). -/

namespace Sys2Proof.Machine

/-- Fetch the word at x[15] and decode it; the event of the instruction, or the fault that ends the step with nothing
changed (R127, R128). The fetch is examined before the decoding (R176). -/
def State.fetchDecode (s : State) : Except FaultRecord Event :=
  match s.memRead s.pc with
  | none => .error (.memory .fetch s.pc s.pc)
  | some w =>
    match decode w with
    | .error _ => .error (.decode s.pc w)
    | .ok ins => .ok ⟨s.pc, w, ins⟩

end Sys2Proof.Machine
end

