-- ==== Sys2Proof/Machine/Step.lean ====
section
/-! DEFINITION. One step of the engine (spec/42_step.md R125, R136), and the host's aid to place one instruction. -/

namespace Sys2Proof.Machine

/-- `step()`, R125, enabled only when STATUS = ready (R136). A fetch or decode fault is a next state with STATUS faulted
and nothing else changed; otherwise the event is sent, for skipped instructions too, before any effect (R129), and the
instruction runs. -/
def step (s : State) : Host.Outcome State Fault Refusal :=
  match s.status with
  | .halted => .fault .halted
  | .faulted record => .fault (.faulted record)
  | .ready =>
    match s.fetchDecode with
    | .error record => .next (s.raise record)
    | .ok event => exec event.ins (s.observe event)

/-- The state with an instruction word where the next step fetches: at x[15], which is first set to 0 where it is no valid
address, with STATUS set to ready. From `State.reset` it changes memory alone (log 7). -/
def State.withFetchWord (s : State) (nbits w : Nat) : State :=
  let base := if s.ValidAddr s.pc then s else s.put pcReg 0
  (base.setStatus .ready).setMem (base.mem.put base.pc.toNat (tableWord nbits w))

end Sys2Proof.Machine
end

