-- ==== Sys2Proof/Machine/Render.lean ====
section
/-! DEFINITION. The textual forms (spec/30_encoding.md R72 to R74, spec/40_condflag_predication.md R96, R97). Text only: no
rule of execution reads it. -/

namespace Sys2Proof

/-- `render(a)`, the canonical string of a mask: the letters of the set bits in the order ZMPV, but for the two named
values (R96). -/
def CondFlag.render (a : CondFlag) : String :=
  if a = CondFlag.always then "ALWAYS"
  else if a = CondFlag.never then "NEVER"
  else
    (if CondFlag.overlaps a CondFlag.Z then "Z" else "") ++ (if CondFlag.overlaps a CondFlag.M then "M" else "")
      ++ (if CondFlag.overlaps a CondFlag.P then "P" else "") ++ (if CondFlag.overlaps a CondFlag.V then "V" else "")

/-- The opcode's name in capitals (R72). -/
def OpCode.render : OpCode → String
  | .add => "ADD"
  | .sub => "SUB"
  | .mul => "MUL"
  | .div => "DIV"
  | .load => "LOAD"
  | .store => "STORE"
  | .halt => "HALT"

/-- `r` and the index in decimal (R73, R74 c). -/
def renderReg (r : Reg) : String := "r" ++ toString r.val

/-- The rendering of an instruction: the opcode, the predicate unless it is ALWAYS, three spaces, the three registers in the
order src1, src2, target, and the offset in decimal between brackets (R73, R74). -/
def Instr.render (i : Instr) : String :=
  i.op.render ++ (if i.pred = CondFlag.always then "" else "/" ++ CondFlag.render i.pred) ++ "   "
    ++ renderReg i.src1 ++ "," ++ renderReg i.src2 ++ "," ++ renderReg i.target ++ "[" ++ toString i.offset ++ "]"

end Sys2Proof
end

