-- ==== Sys2Proof/Machine/HostPort.lean ====
section
/-! DEFINITION. The host control interface: what the host may do between runs, the start of a run and its loop
(spec/70_reset_and_hazards.md R190 to R196). None of these acts during a step, and `runLoop` gives the host no move during a
run (R55, R196; log 11). -/

namespace Sys2Proof.Machine

/-- What `run(start_address)` does before its first step (R192): STATUS ready, COND ALWAYS, the PC; x[1] to x[14] and memory
are kept. A start address that is no 32-bit signed integer is refused (U19); one that fits is not checked further. -/
def State.startRun (s : State) (start : Int) : Option State :=
  if -2147483648 ≤ start ∧ start ≤ 2147483647 then
    some (((s.setStatus .ready).setCond CondFlag.always).put pcReg (BitVec.ofInt 32 start))
  else none

/-- `while STATUS = ready do step()` (R192), for at most `fuel` steps: a run has no bound of its own (R136, R194). -/
def State.runLoop : Nat → State → State
  | 0, s => s
  | fuel + 1, s =>
    match step s with
    | .next t => State.runLoop fuel t
    | .fault _ => s
    | .refused _ => s

/-- `run(start_address)`, cut off after `fuel` steps; the outcome is the STATUS it ends in (R192, R194). -/
def State.run (s : State) (fuel : Nat) (start : Int) : Option State := (s.startRun start).map (State.runLoop fuel)

/-- How a run ended: STATUS once it has left ready, and nothing while the run goes on (R194). Only halted is a successful
end. -/
def State.outcome (s : State) : Option Status := if s.status = .ready then none else some s.status

/-- The host puts a word into memory between runs (R195, R196); an address that does not exist is refused. -/
def State.hostWriteWord (s : State) (addr : Int) (w : Word) : Option State := s.memWrite addr w

/-- The host puts a value into a register between runs (R195, R196, D28). -/
def State.hostWriteReg (s : State) (i : Reg) (v : Word) : State := s.put i v

end Sys2Proof.Machine
end

