-- ==== Sys2Proof/Safety.lean ====
section
/-! DEFINITION. The terms claims are stated in: the machine's invariant, which statuses mean what, the arithmetic results as
mathematics gives them, and what an instruction leaves of the registers. -/

namespace Sys2Proof.Machine

/-- A run that ended well: "this is the only successful end" (R194 a); a faulted end never is (R174). -/
abbrev State.Successful (s : State) : Prop := s.status = .halted

/-- COND holds one of the five values a run can give it (R27). -/
abbrev State.CondLegal (s : State) : Prop :=
  s.cond = CondFlag.always ∨ s.cond = CondFlag.Z ∨ s.cond = CondFlag.M ∨ s.cond = CondFlag.P ∨ s.cond = CondFlag.V

/-- The memory is in its canonical form and lists no word outside the address space (R42). -/
abbrev State.MemLegal (s : State) : Prop := s.mem.wf ∧ ∀ c ∈ s.mem, c.1 ≤ s.lastAddr.val

/-- The word at `a` is an instruction with opcode `op` that passes the predication test. -/
def State.ExecutesAt (s : State) (a : Int) (op : OpCode) : Prop :=
  ∃ w i, s.memRead a = some w ∧ decode w = .ok i ∧ i.op = op ∧ CondFlag.overlaps i.pred s.cond = true

/-- What STATUS says of a stopped machine is so: the PC and the memory show the HALT that ended the run (R160, R194 a), or
the cause the fault record names (R171, R172, R174, and R134 e for the PC). -/
def State.StatusTrue (s : State) : Prop :=
  match s.status with
  | .ready => True
  | .halted => s.ExecutesAt (s.pc - 1) .halt
  | .faulted (.decode a w) => s.pc = a ∧ s.memRead a = some w ∧ ∃ e, decode w = .error e
  | .faulted (.memory .fetch a info) => s.pc = a ∧ info = a ∧ ¬ s.ValidAddr info
  | .faulted (.memory .load a info) => s.pc = a + 1 ∧ ¬ s.ValidAddr info ∧ s.ExecutesAt a .load
  | .faulted (.memory .store a info) => s.pc = a + 1 ∧ ¬ s.ValidAddr info ∧ s.ExecutesAt a .store

/-- The machine's invariant. -/
structure State.Inv (s : State) : Prop where
  memLegal : s.MemLegal
  condLegal : s.CondLegal
  statusTrue : s.StatusTrue

/-- `e` is the exact value of R107, in the terms of R13: for a division the greatest integer `q` with `q * b <= a` when
`b > 0`, and with `q * b >= a` when `b < 0`. -/
def IsExactValue (op : OpCode) (a b e : Int) : Prop :=
  match op with
  | .add | .load | .store => e = a + b
  | .sub => e = a - b
  | .mul => e = a * b
  | .div => (0 < b ∧ e * b ≤ a ∧ ∀ q, q * b ≤ a → q ≤ e) ∨ (b < 0 ∧ a ≤ e * b ∧ ∀ q, a ≤ q * b → q ≤ e)
  | .halt => e = 0

/-- The result and the flag of R109 for an exact value, or for its absence (a division by zero, R110). -/
def ResultAndFlag (exact : Option Int) (v : Word) (flag : CondFlag) : Prop :=
  match exact with
  | none => v = 0 ∧ flag = CondFlag.V
  | some e =>
    if -2147483648 ≤ e ∧ e ≤ 2147483647 then
      v.toInt = e ∧ flag = (if e = 0 then CondFlag.Z else if e < 0 then CondFlag.M else CondFlag.P)
    else v = 0 ∧ flag = CondFlag.V

/-- The instruction encodes as `base + pred * 2^23 + src1 * 2^19 + src2 * 2^15 + target * 2^11 + (offset mod 2048)`, the form
in which the family rules R141 to R144, R151, R152 and R160 give each encoding. -/
def EncodedAs (i : Instr) (base : Nat) : Prop :=
  ∃ w, encode i = some w
    ∧ (w.toNat : Int) = base + i.pred.toNat * 2 ^ 23 + i.src1.val * 2 ^ 19 + i.src2.val * 2 ^ 15 + i.target.val * 2 ^ 11
        + i.offset % 2048

/-- From `s` to `t` the PC advances, register `d` then takes `v` (nothing where `d` is 0; the jump where it is 15), and
every other register is kept. -/
def RegsWritten (s t : State) (d : Reg) (v : Word) : Prop :=
  ∀ r, t.get r = if r = 0 then 0 else if r = d then v else if r = pcReg then s.get pcReg + 1 else s.get r

/-- From `s` to `t` the PC advances and every other register is kept. -/
def RegsAdvanced (s t : State) : Prop :=
  ∀ r, t.get r = if r = pcReg then s.get pcReg + 1 else s.get r

/-- The size of the memory and the events already sent are kept. -/
def OutsideKept (s t : State) : Prop := t.lastAddr = s.lastAddr ∧ t.trace = s.trace

/-- Every word of memory reads as before, at every address. -/
def MemKept (s t : State) : Prop := ∀ x, t.memRead x = s.memRead x

/-- What an executed ADD, SUB, MUL or DIV whose exact value is `exact` does to the whole state (R140): the result goes to
`d`, COND takes the flag, and nothing else changes but the PC. -/
def ArithmeticEffect (s t : State) (d : Reg) (exact : Option Int) : Prop :=
  (∃ v, ResultAndFlag exact v t.cond ∧ RegsWritten s t d v)
    ∧ t.status = s.status ∧ MemKept s t ∧ OutsideKept s t

/-- What a MemoryFault raised by a data access leaves (R172): the PC advanced, STATUS faulted with the record, and nothing
else changed. -/
def DataFaultEffect (s t : State) (access : Access) (ea : Int) : Prop :=
  RegsAdvanced s t ∧ t.cond = s.cond ∧ t.status = .faulted (.memory access s.pc ea) ∧ MemKept s t ∧ OutsideKept s t

end Sys2Proof.Machine
end

