-- ==== Sys2Proof/Certificates/Slice0/Obligations.lean ====
section
/-! DEFINITION. The statements for the provers, each with the rule of spec/ it formalises. None says anything about a
program. -/

open Sys2Proof Sys2Proof.Machine

/-! ### Encoding -/

/-- R70: encode and decode are mutual inverses within the field ranges, the rendering included, and decode is injective
on the words it takes. The bit positions and numbers are the spec's own decisions D4 to D8 (log 9). -/
def Obligations.EncodeAndDecodeAreMutualInverses : Prop :=
  (∀ i : Instr, i.WellFormed →
    ∃ w, encode i = some w ∧ decode w = .ok i ∧ ∀ j, decode w = .ok j → j.render = i.render)
  ∧ (∀ w : Word, (w.extractLsb' 27 5).toNat ≤ 6 → ∃ i, decode w = .ok i ∧ encode i = some w)
  ∧ (∀ (v w : Word) (i : Instr), decode v = .ok i → decode w = .ok i → v = w)

/-- R66, with R65's sign extension: the decoder is total, and every field of the instruction is the word's bits at the
field's place, read as R61 to R65 say. The places and the opcode numbers are the spec's own decisions D4 to D8 (log 9). -/
def Obligations.DecodeReadsEveryFieldAtItsPlace : Prop :=
  ∀ w : Word,
    if (w.extractLsb' 27 5).toNat ≤ 6 then
      ∃ i, decode w = .ok i ∧ i.WellFormed
        ∧ (match i.op with
            | .add => w.extractLsb' 27 5 = 0b00000#5
            | .sub => w.extractLsb' 27 5 = 0b00001#5
            | .mul => w.extractLsb' 27 5 = 0b00010#5
            | .div => w.extractLsb' 27 5 = 0b00011#5
            | .load => w.extractLsb' 27 5 = 0b00100#5
            | .store => w.extractLsb' 27 5 = 0b00101#5
            | .halt => w.extractLsb' 27 5 = 0b00110#5)
        ∧ i.pred = w.extractLsb' 23 4
        ∧ i.src1.val = (w.extractLsb' 19 4).toNat
        ∧ i.src2.val = (w.extractLsb' 15 4).toNat
        ∧ i.target.val = (w.extractLsb' 11 4).toNat
        ∧ i.offset = (w.extractLsb' 0 11).toInt
    else ∃ e, decode w = .error e

/-- R69: the encoder answers the sum of R69 exactly when every field is in range, and refuses every other field values;
it never truncates. The refusal is the spec's own decision D25 and the numbers its decisions D4 to D8 (log 9, log 16). -/
def Obligations.EncoderPacksInRangeFieldsAndRefusesTheRest : Prop :=
  (∀ (op pred src1 src2 target : Nat) (offset : Int),
    if op ≤ 6 ∧ pred ≤ 15 ∧ src1 ≤ 15 ∧ src2 ≤ 15 ∧ target ≤ 15 ∧ -1024 ≤ offset ∧ offset ≤ 1023 then
      ∃ w, encodeFields op pred src1 src2 target offset = some w
        ∧ (w.toNat : Int) = op * 2 ^ 27 + pred * 2 ^ 23 + src1 * 2 ^ 19 + src2 * 2 ^ 15 + target * 2 ^ 11 + offset % 2048
    else encodeFields op pred src1 src2 target offset = none)
  ∧ (∀ i : Instr, i.WellFormed →
      ∃ w, encode i = some w
        ∧ (w.toNat : Int) = opcodeNumber i.op * 2 ^ 27 + i.pred.toNat * 2 ^ 23 + i.src1.val * 2 ^ 19
            + i.src2.val * 2 ^ 15 + i.target.val * 2 ^ 11 + i.offset % 2048)
  ∧ (∀ i : Instr, ¬ i.WellFormed → encode i = none)

/-- One word per opcode, from spec/95_test_vectors.md 2.1, decodes to the instruction beside it. The words rest on the spec's own
decisions D4 to D8 (log 9). -/
def Obligations.WordsOfTheSpecDecodeAsItSays : Prop :=
  decode 0x07800805#32 = .ok (.add 15 0 0 1 5)
  ∧ decode 0x0A891FFF#32 = .ok (.sub 5 1 2 3 (-1))
  ∧ decode 0x137FFBFF#32 = .ok (.mul 6 15 15 15 1023)
  ∧ decode 0x1C3C4C00#32 = .ok (.div 8 7 8 9 (-1024))
  ∧ decode 0x20D5E000#32 = .ok (.load 1 10 11 12 0)
  ∧ decode 0x29187A00#32 = .ok (.store 2 3 0 15 512)
  ∧ decode 0x37800000#32 = .ok (.halt 15 0 0 0 0)

/-! ### The ALU -/

/-- R109, with R107, R108, R110 and R111: (0, V) for a division by zero; for every exact value, the value and its sign's
flag when it fits in 32 bits, and (0, V) when it does not, which is the spec's own decision D11 (log 10). -/
def Obligations.AluGivesTheExactValueOrZeroWithV : Prop :=
  (∀ a : Int, alu .div a 0 = (0, CondFlag.V))
  ∧ (∀ (op : OpCode) (a b : Int), ¬ (op = .div ∧ b = 0) → ∃ e, IsExactValue op a b e)
  ∧ (∀ (op : OpCode) (a b e : Int), IsExactValue op a b e →
      ResultAndFlag (some e) (alu op a b).1 (alu op a b).2)

/-- R109's last paragraph: the flag is always one of Z, M, P, V; it is V exactly in the two fault cases; and there the
result is 0. That overflow is such a case is the spec's own decision D11 (log 10). -/
def Obligations.AluFlagIsOneBitAndVMarksTheFaults : Prop :=
  ∀ (op : OpCode) (a b : Int),
    ((alu op a b).2 = CondFlag.Z ∨ (alu op a b).2 = CondFlag.M ∨ (alu op a b).2 = CondFlag.P
      ∨ (alu op a b).2 = CondFlag.V)
    ∧ ((alu op a b).2 = CondFlag.V ↔
        (op = .div ∧ b = 0) ∨ ∃ e, IsExactValue op a b e ∧ ¬ (-2147483648 ≤ e ∧ e ≤ 2147483647))
    ∧ ((alu op a b).2 = CondFlag.V → (alu op a b).1 = 0)

/-! ### Predication -/

/-- R130: an instruction that fails the predication test advances the PC and does nothing else, whichever of the seven it
is, a HALT, LOAD or STORE included. -/
def Obligations.SkippedInstructionOnlyAdvancesThePc : Prop :=
  ∀ (i : Instr) (s : State), i.pred &&& s.cond = 0b0000#4 →
    ∃ t, exec i s = .next t ∧ RegsAdvanced s t ∧ t.cond = s.cond ∧ t.status = s.status ∧ MemKept s t
      ∧ OutsideKept s t

/-- R101: NEVER is never compatible, so such an instruction is skipped in every state; ALWAYS is compatible with every
value COND can hold, so such an instruction is not skipped in any state that meets the invariant: a HALT halts. That the intersection
formula governs is the spec's own decision D30 (log 12). -/
def Obligations.NeverIsSkippedAndAlwaysExecutes : Prop :=
  (∀ (i : Instr) (s : State), i.pred = 0b0000#4 →
    ∃ t, exec i s = .next t ∧ RegsAdvanced s t ∧ t.cond = s.cond ∧ t.status = s.status ∧ MemKept s t)
  ∧ (∀ (s : State) (a b d : Reg) (k : Int), s.CondLegal →
    ∃ t, exec (.halt 0b1111#4 a b d k) s = .next t ∧ t.status = .halted)

/-- R102: with COND at ALWAYS every predicate but NEVER executes, and with COND at one flag an instruction executes exactly
when its predicate contains that flag; said of HALT, whose execution STATUS shows. The bit of each flag is the spec's own decision D6 (log 9). -/
def Obligations.HaltExecutesExactlyAsItsPredicateSays : Prop :=
  ∀ (s : State) (p : CondFlag) (a b d : Reg) (k : Int), s.status = .ready →
    ∃ t, exec (.halt p a b d k) s = .next t
      ∧ (s.cond = CondFlag.always → (t.status = .halted ↔ p ≠ 0b0000#4))
      ∧ (s.cond = CondFlag.Z → (t.status = .halted ↔ p.getLsbD 0 = true))
      ∧ (s.cond = CondFlag.M → (t.status = .halted ↔ p.getLsbD 1 = true))
      ∧ (s.cond = CondFlag.P → (t.status = .halted ↔ p.getLsbD 2 = true))
      ∧ (s.cond = CondFlag.V → (t.status = .halted ↔ p.getLsbD 3 = true))

/-! ### Arithmetic: result, flag, PC and frame, for every target, r0 and r15 included

The outcome of an overflow is the spec's own decision D11 (log 10) and the opcode numbers its decision D8 (log 9). -/

/-- R141: an executed ADD. -/
def Obligations.AddWritesTheExactSum : Prop :=
  (∀ (s : State) (p : CondFlag) (a b d : Reg) (k : Int), p &&& s.cond ≠ 0b0000#4 →
    ∃ t, exec (.add p a b d k) s = .next t
      ∧ ArithmeticEffect s t d (some ((s.get a).toInt + (k + (s.get b).toInt))))
  ∧ (∀ (p : CondFlag) (a b d : Reg) (k : Int), OffsetInRange k → EncodedAs (.add p a b d k) 0x00000000)

/-- R142: an executed SUB. -/
def Obligations.SubWritesTheExactDifference : Prop :=
  (∀ (s : State) (p : CondFlag) (a b d : Reg) (k : Int), p &&& s.cond ≠ 0b0000#4 →
    ∃ t, exec (.sub p a b d k) s = .next t
      ∧ ArithmeticEffect s t d (some ((s.get a).toInt - (k + (s.get b).toInt))))
  ∧ (∀ (p : CondFlag) (a b d : Reg) (k : Int), OffsetInRange k → EncodedAs (.sub p a b d k) 0x08000000)

/-- R143: an executed MUL. -/
def Obligations.MulWritesTheExactProduct : Prop :=
  (∀ (s : State) (p : CondFlag) (a b d : Reg) (k : Int), p &&& s.cond ≠ 0b0000#4 →
    ∃ t, exec (.mul p a b d k) s = .next t
      ∧ ArithmeticEffect s t d (some ((s.get a).toInt * (k + (s.get b).toInt))))
  ∧ (∀ (p : CondFlag) (a b d : Reg) (k : Int), OffsetInRange k → EncodedAs (.mul p a b d k) 0x10000000)

/-- R144: an executed DIV. The divisor is the sum; by zero the result is 0 with V; else the quotient is the floor. -/
def Obligations.DivWritesTheFlooredQuotient : Prop :=
  (∀ (s : State) (p : CondFlag) (a b d : Reg) (k : Int), p &&& s.cond ≠ 0b0000#4 →
    ∃ t, exec (.div p a b d k) s = .next t
      ∧ (if k + (s.get b).toInt = 0 then ArithmeticEffect s t d none
          else ∃ q, IsExactValue .div (s.get a).toInt (k + (s.get b).toInt) q ∧ ArithmeticEffect s t d (some q)))
  ∧ (∀ (p : CondFlag) (a b d : Reg) (k : Int), OffsetInRange k → EncodedAs (.div p a b d k) 0x18000000)

/-- R161: `ADD r0,r15,r15[k]` is the jump to `a + k`, from the instruction's own address, as the step that runs it shows.
Where the sum does not fit in 32 bits the jump goes to 0, by R163, which rests on the spec's own decision D11 (log 10). -/
def Obligations.AddToThePcJumpsRelativeToItsOwnAddress : Prop :=
  ∀ (s : State) (w : Word) (p : CondFlag) (k : Int), s.status = .ready → s.memRead s.pc = some w →
    decode w = .ok (.add p 0 15 15 k) → p &&& s.cond ≠ 0b0000#4 →
    ∃ t, step s = .next t
      ∧ (if s.pc + k ≤ 2147483647 then t.pc = s.pc + k else t.pc = 0 ∧ t.cond = CondFlag.V)

/-! ### LOAD and STORE

Which addresses are valid is the spec's own decision D3 (log 4), and what an invalid one does its decision D13. -/

/-- R151, with the address of R150: an executed LOAD takes the word at the exact sum to its target; where that sum is no valid
address, whether negative, beyond the memory or beyond 32 bits, it raises MemoryFault(load, a, EA). -/
def Obligations.LoadWritesTheWordAtTheAddressOrFaults : Prop :=
  (∀ (s : State) (p : CondFlag) (a b d : Reg) (k : Int) (w : Word), p &&& s.cond ≠ 0b0000#4 →
    s.memRead ((s.get a).toInt + (k + (s.get b).toInt)) = some w →
    ∃ t, exec (.load p a b d k) s = .next t ∧ RegsWritten s t d w ∧ t.cond = s.cond ∧ t.status = s.status
      ∧ MemKept s t ∧ OutsideKept s t)
  ∧ (∀ (s : State) (p : CondFlag) (a b d : Reg) (k ea : Int), p &&& s.cond ≠ 0b0000#4 →
    ea = (s.get a).toInt + (k + (s.get b).toInt) → ¬ (0 ≤ ea ∧ ea ≤ (s.memWords : Int) - 1) →
    ∃ t, exec (.load p a b d k) s = .next t ∧ DataFaultEffect s t .load ea)
  ∧ (∀ (p : CondFlag) (a b d : Reg) (k : Int), OffsetInRange k → EncodedAs (.load p a b d k) 0x20000000)

/-- R152, with the address of R150: an executed STORE puts the target register's value, read after the PC advance, at the
exact sum and keeps every other word; where that sum is no valid address it raises MemoryFault(store, a, EA) and writes
nothing. -/
def Obligations.StoreWritesTheRegisterAtTheAddressOrFaults : Prop :=
  (∀ (s : State) (p : CondFlag) (a b d : Reg) (k ea : Int), p &&& s.cond ≠ 0b0000#4 →
    ea = (s.get a).toInt + (k + (s.get b).toInt) → 0 ≤ ea → ea ≤ (s.memWords : Int) - 1 →
    ∃ t, exec (.store p a b d k) s = .next t
      ∧ (∀ x, t.memRead x =
          if x = ea then some (if d = pcReg then s.get pcReg + 1 else s.get d) else s.memRead x)
      ∧ RegsAdvanced s t ∧ t.cond = s.cond ∧ t.status = s.status ∧ OutsideKept s t)
  ∧ (∀ (s : State) (p : CondFlag) (a b d : Reg) (k ea : Int), p &&& s.cond ≠ 0b0000#4 →
    ea = (s.get a).toInt + (k + (s.get b).toInt) → ¬ (0 ≤ ea ∧ ea ≤ (s.memWords : Int) - 1) →
    ∃ t, exec (.store p a b d k) s = .next t ∧ DataFaultEffect s t .store ea)
  ∧ (∀ (p : CondFlag) (a b d : Reg) (k : Int), OffsetInRange k → EncodedAs (.store p a b d k) 0x28000000)

/-- R154, which the spec marks as derived from R151, R152 and R44: a LOAD that computes the address a STORE wrote, with no other write to it between, leaves in its target the value
stored (which is a + 1 when the STORE's target is r15), unless that target is r0. -/
def Obligations.StoreThenLoadRoundTrip : Prop :=
  ∀ (s t u : State) (p q : CondFlag) (a b d a' b' d' : Reg) (k k' ea : Int),
    p &&& s.cond ≠ 0b0000#4 → (s.get a).toInt + (k + (s.get b).toInt) = ea → s.ValidAddr ea →
    exec (.store p a b d k) s = .next t →
    u.memRead ea = t.memRead ea → q &&& u.cond ≠ 0b0000#4 → (u.get a').toInt + (k' + (u.get b').toInt) = ea →
    ∃ x, exec (.load q a' b' d' k') u = .next x
      ∧ x.get d' = if d' = 0 then 0 else if d = pcReg then s.get pcReg + 1 else s.get d

/-- R53, which the spec marks as derived: a STORE to the next address is seen by the very next fetch. -/
def Obligations.StoreIsSeenByTheVeryNextFetch : Prop :=
  ∀ (s : State) (w v : Word) (p : CondFlag) (a b d : Reg) (k : Int) (i : Instr), s.status = .ready →
    s.memRead s.pc = some w → decode w = .ok (.store p a b d k) → p &&& s.cond ≠ 0b0000#4 →
    (s.get a).toInt + (k + (s.get b).toInt) = s.pc + 1 → s.ValidAddr (s.pc + 1) →
    v = (if d = pcReg then s.get pcReg + 1 else s.get d) → decode v = .ok i →
    ∃ t, step s = .next t ∧ t.pc = s.pc + 1 ∧ step t = exec i (t.observe ⟨s.pc + 1, v, i⟩)

/-! ### HALT -/

/-- R160: an executed HALT, whatever its register fields and offset, with its frame; after it no step is taken. -/
def Obligations.HaltEndsTheRunWithThePcAdvanced : Prop :=
  (∀ (s : State) (p : CondFlag) (a b d : Reg) (k : Int), p &&& s.cond ≠ 0b0000#4 →
    ∃ t, exec (.halt p a b d k) s = .next t ∧ t.status = .halted ∧ t.halted = true ∧ RegsAdvanced s t
      ∧ t.cond = s.cond ∧ MemKept s t ∧ OutsideKept s t ∧ step t = .fault .halted)
  ∧ (∀ (s : State) (p : CondFlag) (a b d : Reg) (k : Int), s.status = .ready → p &&& s.cond = 0b0000#4 →
    ∃ t, exec (.halt p a b d k) s = .next t ∧ t.status = .ready ∧ RegsAdvanced s t)
  ∧ (∀ (p : CondFlag) (a b d : Reg) (k : Int), OffsetInRange k → EncodedAs (.halt p a b d k) 0x30000000)

/-! ### The step -/

/-- R125: in ready, a step whose fetched word decodes is `exec` of that instruction after its event; no other state changes
around it. -/
def Obligations.StepRunsTheDecodedInstruction : Prop :=
  ∀ (s : State) (w : Word) (i : Instr), s.status = .ready → s.memRead s.pc = some w → decode w = .ok i →
    step s = exec i (s.observe ⟨s.pc, w, i⟩)

/-- R126, R127: a step fetches the one word at x[15]; where x[15] is no valid address the step ends with
MemoryFault(fetch, a, a) and changes no other state. R125, R128, R129: it then runs what the word decodes to after the event,
or raises DecodeFault, which is the spec's own decision D9; the details of the event are its decision D17. That a fault is a
next state is the model's form (log 6); that the events are kept in the state is the model's choice (log 8). -/
def Obligations.FetchReadsTheWordAtThePcOrFaults : Prop :=
  ∀ s : State, s.status = .ready →
    if 0 ≤ s.pc ∧ s.pc ≤ (s.memWords : Int) - 1 then
      ∃ w, s.memRead s.pc = some w ∧ (∀ i, decode w = .ok i → step s = exec i (s.observe ⟨s.pc, w, i⟩))
        ∧ (∀ e, decode w = .error e → step s = .next (s.raise (.decode s.pc w)))
    else
      ∃ t, step s = .next t ∧ t.status = .faulted (.memory .fetch s.pc s.pc) ∧ (∀ r, t.get r = s.get r)
        ∧ t.cond = s.cond ∧ MemKept s t ∧ OutsideKept s t

/-- R67, R128, R171, which carry the spec's own decision D9: a word with an opcode field of 7 to 31 raises DecodeFault, whatever its other bits (its predicate among
them) are, and changes no other state. -/
def Obligations.IllegalWordFaultsWhateverItsOtherBits : Prop :=
  ∀ (s : State) (w : Word), s.status = .ready → s.memRead s.pc = some w → 7 ≤ (w.extractLsb' 27 5).toNat →
    ∃ t, step s = .next t ∧ t.status = .faulted (.decode s.pc w) ∧ (∀ r, t.get r = s.get r)
      ∧ t.cond = s.cond ∧ MemKept s t ∧ OutsideKept s t

/-- R68 with R101: a legal word whose predicate field is NEVER, the zero word among them, only advances the PC and sends its
event. The places of the two fields are the spec's own decisions D5 and D6 (log 9). -/
def Obligations.NeverPredicatedWordOnlyAdvancesThePc : Prop :=
  ∀ (s : State) (w : Word), s.status = .ready → s.memRead s.pc = some w → (w.extractLsb' 27 5).toNat ≤ 6 →
    w.extractLsb' 23 4 = 0b0000#4 →
    ∃ t i, step s = .next t ∧ decode w = .ok i ∧ t.pc = s.pc + 1 ∧ RegsAdvanced s t ∧ t.cond = s.cond
      ∧ t.status = .ready ∧ MemKept s t ∧ t.lastAddr = s.lastAddr ∧ t.trace = ⟨s.pc, w, i⟩ :: s.trace

/-- R136, which carries the spec's own decision D26: a step is taken in ready and only there; in halted and in faulted there is
none, which the model reports as its Fault (log 6). -/
def Obligations.StepIsTakenExactlyInReady : Prop :=
  ∀ s : State, ((∃ t, step s = .next t) ↔ s.status = .ready)
    ∧ (s.status = .halted → step s = .fault .halted)
    ∧ (∀ r, s.status = .faulted r → step s = .fault (.faulted r))

/-- R177, which carries the spec's own decision D14, with R134 e, R171 and R172: faults are precise. A step that faults changed nothing but STATUS and, for a data
access, the PC, which is then a + 1; its record names the instruction's
address; and no step follows. -/
def Obligations.FaultsArePrecise : Prop :=
  ∀ (s t : State) (r : FaultRecord), step s = .next t → t.status = .faulted r →
    r.address = s.pc ∧ (∀ q, q ≠ pcReg → t.get q = s.get q)
      ∧ t.pc = (if r.code = 1 ∨ r.code = 2 then s.pc else s.pc + 1) ∧ t.cond = s.cond ∧ MemKept s t
      ∧ step t = .fault (.faulted r)

/-- R176, which carries the spec's own decision D27: the fetch is examined before the decoding, and the decoding before the data access; so the record of a step that
faults tells which stage was the first to fail. -/
def Obligations.FaultRecordTellsTheFirstFailingStage : Prop :=
  ∀ (s t : State) (r : FaultRecord), step s = .next t → t.status = .faulted r →
    match r with
    | .memory .fetch a info => a = s.pc ∧ info = s.pc ∧ ¬ s.ValidAddr s.pc
    | .decode a w => a = s.pc ∧ s.memRead s.pc = some w ∧ 7 ≤ (w.extractLsb' 27 5).toNat
    | .memory .load a info =>
      a = s.pc ∧ ¬ s.ValidAddr info ∧ ∃ w i, s.memRead s.pc = some w ∧ decode w = .ok i ∧ i.op = .load
        ∧ i.pred &&& s.cond ≠ 0b0000#4 ∧ info = (s.get i.src1).toInt + (i.offset + (s.get i.src2).toInt)
    | .memory .store a info =>
      a = s.pc ∧ ¬ s.ValidAddr info ∧ ∃ w i, s.memRead s.pc = some w ∧ decode w = .ok i ∧ i.op = .store
        ∧ i.pred &&& s.cond ≠ 0b0000#4 ∧ info = (s.get i.src1).toInt + (i.offset + (s.get i.src2).toInt)

/-! ### Whole-machine rules -/

/-- R27, which carries the spec's own decision D10 (log 17): no step changes COND unless it executes an ADD, SUB, MUL or DIV; and every one that does leaves one of Z, M, P, V. -/
def Obligations.CondIsWrittenOnlyByExecutedArithmetic : Prop :=
  ∀ s t : State, step s = .next t →
    t.cond = s.cond
    ∨ ((t.cond = CondFlag.Z ∨ t.cond = CondFlag.M ∨ t.cond = CondFlag.P ∨ t.cond = CondFlag.V)
        ∧ (s.ExecutesAt s.pc .add ∨ s.ExecutesAt s.pc .sub ∨ s.ExecutesAt s.pc .mul ∨ s.ExecutesAt s.pc .div))

/-- R26: a step changes a register other than the PC only where it executes an ADD, SUB, MUL, DIV or LOAD with that register
as its target. -/
def Obligations.RegisterIsWrittenOnlyAsATarget : Prop :=
  ∀ (s t : State) (r : Reg), step s = .next t → r ≠ pcReg → t.get r ≠ s.get r →
    ∃ w i, s.memRead s.pc = some w ∧ decode w = .ok i ∧ i.pred &&& s.cond ≠ 0b0000#4 ∧ i.target = r
      ∧ (i.op = .add ∨ i.op = .sub ∨ i.op = .mul ∨ i.op = .div ∨ i.op = .load)

/-- R47: a step changes no word of memory unless it executes a STORE, and then only the word at the STORE's own address. -/
def Obligations.MemoryIsWrittenOnlyByAnExecutedStore : Prop :=
  ∀ (s t : State) (x : Int), step s = .next t → t.memRead x ≠ s.memRead x →
    ∃ w i, s.memRead s.pc = some w ∧ decode w = .ok i ∧ i.op = .store ∧ i.pred &&& s.cond ≠ 0b0000#4
      ∧ x = (s.get i.src1).toInt + (i.offset + (s.get i.src2).toInt)

/-- R28: a step leaves STATUS halted only where it executes a HALT, and the PC is then one past it. -/
def Obligations.OnlyAnExecutedHaltHalts : Prop :=
  ∀ s t : State, step s = .next t → t.status = .halted → s.ExecutesAt s.pc .halt ∧ t.pc = s.pc + 1

/-- R129: the event is sent once for every instruction that is fetched and decoded, skipped ones included, with the address
before the advance, the word and the instruction; a step that faults before that sends none. The
details are the spec's own decision D17; that the events are kept in the state is the model's choice (log 8). -/
def Obligations.EveryDecodedInstructionIsObservedOnce : Prop :=
  ∀ s t : State, step s = .next t →
    (∀ w i, s.memRead s.pc = some w → decode w = .ok i → t.trace = ⟨s.pc, w, i⟩ :: s.trace)
    ∧ (s.memRead s.pc = none → t.trace = s.trace)
    ∧ (∀ w e, s.memRead s.pc = some w → decode w = .error e → t.trace = s.trace)

/-- R180: the events already sent, which the model keeps in its own field (log 8), have no influence: two states that differ in them alone step alike. -/
def Obligations.ObserversDoNotAffectExecution : Prop :=
  ∀ (s t : State) (events : List Event), step s = .next t →
    ∃ events', step { s with trace := events } = .next { t with trace := events' }

/-! ### Invariant, reset, run -/

/-- Every step keeps the invariant (the canonical memory inside its bounds, R42; the five values of COND, R27; the truth of
STATUS, R134 e, R160, R171, R172) and the size of the memory. -/
def Obligations.StepKeepsTheInvariant : Prop :=
  ∀ s t : State, s.Inv → step s = .next t → t.Inv ∧ t.lastAddr = s.lastAddr

/-- The invariant holds at power-on, whatever the registers, for every memory size and every memory that fits it; so at
reset, whose registers, PC, memory and size are the model's choice (log 1 to 4). -/
def Obligations.PowerOnMeetsTheInvariant : Prop :=
  (∀ (regs : Vector Word 15) (last : Fin 2147483647) (mem : Memory), mem.wf → (∀ c ∈ mem, c.1 ≤ last.val) →
    (State.powerOn regs last mem).Inv)
  ∧ State.reset.Inv

/-- R34, some of whose cells carry the spec's own decisions D14 and D15: the value of every piece of state at power-on, whatever the registers x[1] to x[15] and the memory hold there, and at
the start of a run from any state. -/
def Obligations.PowerOnAndRunStartLeaveTheSpecsValues : Prop :=
  (∀ (regs : Vector Word 15) (last : Fin 2147483647) (mem : Memory),
    (State.powerOn regs last mem).get 0 = 0 ∧ (State.powerOn regs last mem).cond = 0b1111#4
      ∧ (State.powerOn regs last mem).halted = false ∧ (State.powerOn regs last mem).status = .ready
      ∧ ∀ i : Fin 15, (State.powerOn regs last mem).get i.succ = regs[i])
  ∧ (∀ (s t : State) (start : Int), s.startRun start = some t →
    t.get 0 = 0 ∧ (∀ r, r ≠ pcReg → t.get r = s.get r) ∧ t.pc = start ∧ t.cond = 0b1111#4 ∧ t.halted = false
      ∧ t.status = .ready ∧ t.mem = s.mem)

/-- R192, which carries the spec's own decision D16: `run(start_address)` sets STATUS ready, COND ALWAYS and the PC, and keeps every other register and the memory; its
start address is not checked but for fitting in 32 bits. -/
def Obligations.RunStartResetsStatusCondAndPc : Prop :=
  ∀ (s : State) (start : Int),
    if -2147483648 ≤ start ∧ start ≤ 2147483647 then
      ∃ t, s.startRun start = some t ∧ t.status = .ready ∧ t.halted = false ∧ t.cond = 0b1111#4 ∧ t.pc = start
        ∧ (∀ r, r ≠ pcReg → t.get r = s.get r) ∧ MemKept s t ∧ OutsideKept s t
    else s.startRun start = none

/-- R194, which carries the spec's own decision D14: a run ends exactly when STATUS leaves ready. From there no further step changes anything, and until then the run
goes on: each step of the loop is a step of the engine. -/
def Obligations.RunEndsExactlyWhenStatusLeavesReady : Prop :=
  (∀ (s : State) (n m : Nat), (State.runLoop n s).status ≠ .ready → State.runLoop (n + m) s = State.runLoop n s)
  ∧ (∀ (s : State) (n : Nat), (State.runLoop n s).status = .ready →
      step (State.runLoop n s) = .next (State.runLoop (n + 1) s))

/-- A run from any state whose memory is legal, started at any 32-bit address and stopped after any number of steps, is in a
state that meets the invariant: a halted end shows its HALT, and a faulted end the cause its record names. -/
def Obligations.EveryStateOfARunMeetsTheInvariant : Prop :=
  ∀ (s t : State) (start : Int) (n : Nat), s.MemLegal → s.run n start = some t → t.Inv
end

