-- ==== Sys2Proof/Laws/Alu.lean ====
section
/-! SUPPORT. What the ALU answers, once per case. -/

namespace Sys2Proof

/-- `sint32(pat32(v)) = v` for a 32-bit signed integer (R13). -/
theorem toInt_ofInt_of_fits {e : Int} (h : Fits32 e) : (BitVec.ofInt 32 e).toInt = e := by
  rw [BitVec.toInt_ofInt, Int.bmod_eq_of_le]
  · have := h.1; norm_num; omega
  · have := h.2; norm_num; omega

/-- A register's value always fits. -/
theorem fits_toInt (w : Word) : Fits32 w.toInt := by
  have h1 := BitVec.le_toInt w
  have h2 := BitVec.toInt_lt (x := w)
  norm_num at h1 h2
  constructor <;> omega

theorem flagOf_ne_V (e : Int) : flagOf e ≠ CondFlag.V := by
  unfold flagOf; split
  · decide
  · split <;> decide

/-- The ALU on an exact value that fits (R109). -/
theorem alu_of_fits {op : OpCode} {a b e : Int} (h : exactValue op a b = some e) (hf : Fits32 e) :
    alu op a b = (BitVec.ofInt 32 e, flagOf e) := by
  simp only [alu, h]; exact if_pos hf

/-- The ALU on an exact value that does not fit (R111). -/
theorem alu_of_overflow {op : OpCode} {a b e : Int} (h : exactValue op a b = some e) (hf : ¬ Fits32 e) :
    alu op a b = (0, CondFlag.V) := by
  simp only [alu, h]; exact if_neg hf

/-- The ALU without an exact value: a division by zero (R110). -/
theorem alu_of_none {op : OpCode} {a b : Int} (h : exactValue op a b = none) : alu op a b = (0, CondFlag.V) := by
  simp only [alu, h]

/-- The only operation without an exact value is a division by zero (R107). -/
theorem exactValue_eq_none {op : OpCode} {a b : Int} : exactValue op a b = none ↔ op = .div ∧ b = 0 := by
  cases op <;> simp [exactValue]

/-- The quotient of `floorDiv` lies between: `q * b <= a < (q + 1) * b` for a positive divisor (R13). -/
theorem floorDiv_pos {a b : Int} (hb : 0 < b) : floorDiv a b * b ≤ a ∧ a < (floorDiv a b + 1) * b := by
  have h := Int.mul_fdiv_add_fmod a b
  have h1 := Int.fmod_nonneg_of_pos a hb
  have h2 := Int.fmod_lt_of_pos a hb
  constructor <;> simp only [floorDiv] <;> nlinarith

/-- And the other way round for a negative divisor (R13). -/
theorem floorDiv_neg {a b : Int} (hb : b < 0) : a ≤ floorDiv a b * b ∧ (floorDiv a b + 1) * b < a := by
  have e : floorDiv a b = floorDiv (-a) (-b) := by simp [floorDiv, Int.neg_fdiv_neg]
  have h := floorDiv_pos (a := -a) (b := -b) (by omega)
  rw [← e] at h
  constructor <;> nlinarith [h.1, h.2]

end Sys2Proof
end

