-- ==== Sys2Proof/Laws/Decode.lean ====
section
/-! SUPPORT. Small lemmas of the decoder and the encoder: each field at its place, and when each of them answers. -/

namespace Sys2Proof

/-- OPCODE_MAP as R62 numbers it. -/
@[simp] theorem opcodeNumber_add : opcodeNumber .add = 0 := rfl
@[simp] theorem opcodeNumber_sub : opcodeNumber .sub = 1 := rfl
@[simp] theorem opcodeNumber_mul : opcodeNumber .mul = 2 := rfl
@[simp] theorem opcodeNumber_div : opcodeNumber .div = 3 := rfl
@[simp] theorem opcodeNumber_load : opcodeNumber .load = 4 := rfl
@[simp] theorem opcodeNumber_store : opcodeNumber .store = 5 := rfl
@[simp] theorem opcodeNumber_halt : opcodeNumber .halt = 6 := rfl

/-- The numbering of R62 read both ways. -/
theorem opcodeOfNumber_opcodeNumber (op : OpCode) : opcodeOfNumber (opcodeNumber op) = some op := by
  cases op <;> rfl

/-- A number names an opcode exactly when it is that opcode's number. -/
theorem opcodeOfNumber_eq_some {n : Nat} {op : OpCode} : opcodeOfNumber n = some op ↔ n = opcodeNumber op := by
  constructor
  · intro h
    have e := List.find?_some (p := fun o => opcodeNumber o == n) h
    exact (beq_iff_eq.mp e).symm
  · rintro rfl; exact opcodeOfNumber_opcodeNumber op

theorem opcodeNumber_le (op : OpCode) : opcodeNumber op ≤ 6 := by cases op <;> decide

/-- The known opcode numbers are 0 to 6 (R62, R67). -/
theorem opcodeOfNumber_isSome {n : Nat} : (opcodeOfNumber n).isSome ↔ n ≤ 6 := by
  constructor
  · intro h
    obtain ⟨op, ho⟩ := Option.isSome_iff_exists.mp h
    rw [opcodeOfNumber_eq_some.mp ho]; exact opcodeNumber_le op
  · intro h
    interval_cases n <;> rfl

/-- The sum of R69 does not reach 2^32 when its fields are in range. -/
theorem toNat_packFields {op pred src1 src2 target : Nat} {offset : Int} (h : op ≤ 6) (hp : pred < 16) (h1 : src1 < 16)
    (h2 : src2 < 16) (ht : target < 16) :
    (packFields op pred src1 src2 target offset).toNat =
      op * 134217728 + pred * 8388608 + src1 * 524288 + src2 * 32768 + target * 2048 + (offset % 2048).toNat := by
  simp only [packFields, encoding, BitVec.toNat_ofNat]
  norm_num
  omega

/-- Each field of a packed word reads back as what was packed (R61). -/
theorem bitField_packFields {op pred src1 src2 target : Nat} {offset : Int} (h : op ≤ 6) (hp : pred < 16)
    (h1 : src1 < 16) (h2 : src2 < 16) (ht : target < 16) :
    bitField (packFields op pred src1 src2 target offset) encoding.opPos encoding.opBits = op
    ∧ bitField (packFields op pred src1 src2 target offset) encoding.predPos encoding.predBits = pred
    ∧ bitField (packFields op pred src1 src2 target offset) encoding.src1Pos encoding.regBits = src1
    ∧ bitField (packFields op pred src1 src2 target offset) encoding.src2Pos encoding.regBits = src2
    ∧ bitField (packFields op pred src1 src2 target offset) encoding.targetPos encoding.regBits = target
    ∧ bitField (packFields op pred src1 src2 target offset) encoding.offsetPos encoding.offsetBits
        = (offset % 2048).toNat := by
  simp only [bitField, toNat_packFields h hp h1 h2 ht, encoding]
  norm_num
  refine ⟨?_, ?_, ?_, ?_, ?_, ?_⟩ <;> omega

/-- The offset range in numbers (R65). -/
theorem offsetInRange_iff {offset : Int} : OffsetInRange offset ↔ -1024 ≤ offset ∧ offset ≤ 1023 := by
  simp only [OffsetInRange, encoding]
  omega

/-- An 11-bit field holds every offset in range (R65). -/
theorem signExtend_of_inRange {offset : Int} (h : OffsetInRange offset) :
    signExtend 11 (offset % 2048).toNat = offset := by
  obtain ⟨hl, hu⟩ := offsetInRange_iff.mp h
  simp only [signExtend]
  norm_num
  split <;> omega

/-- What the sign extension of an 11-bit field gives is in range. -/
theorem signExtend_inRange {n : Nat} (h : n < 2048) : OffsetInRange (signExtend 11 n) := by
  rw [offsetInRange_iff]
  simp only [signExtend]
  norm_num
  split <;> omega

/-- Which fields the encoder takes (R69). -/
theorem encodeFields_eq_some {op pred src1 src2 target : Nat} {offset : Int} {w : Word} :
    encodeFields op pred src1 src2 target offset = some w ↔
      (op ≤ 6 ∧ pred < 16 ∧ src1 < 16 ∧ src2 < 16 ∧ target < 16 ∧ OffsetInRange offset)
        ∧ w = packFields op pred src1 src2 target offset := by
  unfold encodeFields
  simp only [opcodeOfNumber_isSome, show 2 ^ encoding.predBits = 16 from rfl, show 2 ^ encoding.regBits = 16 from rfl]
  split <;> rename_i h
  · rw [Option.some.injEq]; exact ⟨fun e => ⟨h, e.symm⟩, fun e => e.2.symm⟩
  · simp only [reduceCtorEq, false_iff]; exact fun c => h c.1

/-- What the decoder answers for each opcode number (R66, R67). -/
theorem decode_eq_ok {w : Word} {i : Instr} :
    decode w = .ok i ↔ ∃ op, bitField w encoding.opPos encoding.opBits = opcodeNumber op ∧
      i = op.instr (BitVec.ofNat 4 (bitField w encoding.predPos encoding.predBits))
        (Fin.ofNat 16 (bitField w encoding.src1Pos encoding.regBits))
        (Fin.ofNat 16 (bitField w encoding.src2Pos encoding.regBits))
        (Fin.ofNat 16 (bitField w encoding.targetPos encoding.regBits))
        (signExtend encoding.offsetBits (bitField w encoding.offsetPos encoding.offsetBits)) := by
  unfold decode
  cases h : opcodeOfNumber (bitField w encoding.opPos encoding.opBits) with
  | none =>
    simp only [reduceCtorEq, false_iff]
    rintro ⟨op, ho, -⟩
    rw [opcodeOfNumber_eq_some.mpr ho] at h; cases h
  | some op =>
    have ho := opcodeOfNumber_eq_some.mp h
    simp only [Except.ok.injEq]
    constructor
    · rintro rfl; exact ⟨op, ho, rfl⟩
    · rintro ⟨op', ho', rfl⟩
      rw [opcodeOfNumber_eq_some.mpr ho'] at h; cases h; rfl

@[simp] theorem OpCode.instr_op (op : OpCode) (p : CondFlag) (a b d : Reg) (k : Int) : (op.instr p a b d k).op = op := by
  cases op <;> rfl
@[simp] theorem OpCode.instr_pred (op : OpCode) (p : CondFlag) (a b d : Reg) (k : Int) :
    (op.instr p a b d k).pred = p := by cases op <;> rfl
@[simp] theorem OpCode.instr_src1 (op : OpCode) (p : CondFlag) (a b d : Reg) (k : Int) :
    (op.instr p a b d k).src1 = a := by cases op <;> rfl
@[simp] theorem OpCode.instr_src2 (op : OpCode) (p : CondFlag) (a b d : Reg) (k : Int) :
    (op.instr p a b d k).src2 = b := by cases op <;> rfl
@[simp] theorem OpCode.instr_target (op : OpCode) (p : CondFlag) (a b d : Reg) (k : Int) :
    (op.instr p a b d k).target = d := by cases op <;> rfl
@[simp] theorem OpCode.instr_offset (op : OpCode) (p : CondFlag) (a b d : Reg) (k : Int) :
    (op.instr p a b d k).offset = k := by cases op <;> rfl

end Sys2Proof
end

