-- ==== Sys2Proof/Laws/Flags.lean ====
section
/-! SUPPORT. The laws of the condition-flag algebra (spec/40_condflag_predication.md R95). -/

namespace Sys2Proof

/-- The four condition bits by their weights (R63). -/
theorem CondFlag.Z_eq : CondFlag.Z = 0b0001#4 := rfl
theorem CondFlag.M_eq : CondFlag.M = 0b0010#4 := rfl
theorem CondFlag.P_eq : CondFlag.P = 0b0100#4 := rfl
theorem CondFlag.V_eq : CondFlag.V = 0b1000#4 := rfl

/-- The predication test passes exactly when the intersection is not empty (R94, R100). -/
theorem CondFlag.overlaps_eq_true {a b : CondFlag} : overlaps a b = true ↔ a &&& b ≠ 0b0000#4 := decide_eq_true_iff

theorem CondFlag.overlaps_eq_false {a b : CondFlag} : overlaps a b = false ↔ a &&& b = 0b0000#4 := by
  rw [← Bool.not_eq_true, overlaps_eq_true, not_not]

theorem CondFlag.overlaps_comm (a b : CondFlag) : overlaps a b = overlaps b a := by
  simp only [overlaps, BitVec.and_comm]

theorem CondFlag.overlaps_never (a : CondFlag) : overlaps a never = false := overlaps_eq_false.mpr (by simp [never])

theorem CondFlag.never_overlaps (a : CondFlag) : overlaps never a = false := by rw [overlaps_comm, overlaps_never]

theorem CondFlag.overlaps_always {a : CondFlag} : overlaps a always = true ↔ a ≠ never := by revert a; decide

theorem CondFlag.overlaps_self {a : CondFlag} : overlaps a a = true ↔ a ≠ never := by revert a; decide

theorem CondFlag.union_comm (a b : CondFlag) : union a b = union b a := BitVec.or_comm a b

theorem CondFlag.union_assoc (a b c : CondFlag) : union (union a b) c = union a (union b c) := BitVec.or_assoc a b c

theorem CondFlag.union_self (a : CondFlag) : union a a = a := BitVec.or_self

theorem CondFlag.union_never (a : CondFlag) : union a never = a := BitVec.or_zero

theorem CondFlag.union_always (a : CondFlag) : union a always = always := by revert a; decide

/-- A composite predicate passes where one of its parts does (R95). -/
theorem CondFlag.overlaps_union (a b c : CondFlag) : overlaps (union a b) c = (overlaps a c || overlaps b c) := by
  revert a b c; decide

end Sys2Proof
end

