-- ==== Sys2Proof/Laws/State.lean ====
section
/-! SUPPORT. The small lemmas of the state: one per field per update, and the laws of the register file. -/

namespace Sys2Proof.Machine

@[simp] theorem State.get_zero (s : State) : s.get 0 = 0 := by simp [State.get]

@[simp] theorem State.put_zero (s : State) (v : Word) : s.put 0 v = s := by simp [State.put]

/-- The contract of block RF (R22, R23): what a register reads after one write. -/
theorem State.get_put (s : State) (i j : Reg) (v : Word) :
    (s.put i v).get j = if j = 0 then 0 else if j = i then v else s.get j := by
  by_cases hj : j = 0
  · simp [hj]
  by_cases hi : i = 0
  · subst hi; simp [hj]
  have hj' : j.val ≠ 0 := fun h => hj (Fin.ext h)
  have hi' : i.val ≠ 0 := fun h => hi (Fin.ext h)
  simp only [State.get, State.put, hi, hj, dif_neg, not_false_iff, if_neg, Vector.getElem_set]
  by_cases h : j = i
  · simp [h]
  · have : i.val - 1 ≠ j.val - 1 := fun e => h (Fin.ext (by omega))
    simp [h, this]

theorem State.get_put_self (s : State) {i : Reg} (h : i ≠ 0) (v : Word) : (s.put i v).get i = v := by
  simp [State.get_put, h]

theorem State.get_put_ne (s : State) {i j : Reg} (h : j ≠ i) (v : Word) : (s.put i v).get j = s.get j := by
  by_cases hj : j = 0
  · simp [hj]
  · simp [State.get_put, h, hj]

@[simp] theorem State.put_cond (s : State) (i : Reg) (v : Word) : (s.put i v).cond = s.cond := by
  unfold State.put; split <;> rfl
@[simp] theorem State.put_status (s : State) (i : Reg) (v : Word) : (s.put i v).status = s.status := by
  unfold State.put; split <;> rfl
@[simp] theorem State.put_lastAddr (s : State) (i : Reg) (v : Word) : (s.put i v).lastAddr = s.lastAddr := by
  unfold State.put; split <;> rfl
@[simp] theorem State.put_mem (s : State) (i : Reg) (v : Word) : (s.put i v).mem = s.mem := by
  unfold State.put; split <;> rfl
@[simp] theorem State.put_trace (s : State) (i : Reg) (v : Word) : (s.put i v).trace = s.trace := by
  unfold State.put; split <;> rfl

@[simp] theorem State.setCond_get (s : State) (c : CondFlag) (i : Reg) : (s.setCond c).get i = s.get i := rfl
@[simp] theorem State.setCond_cond (s : State) (c : CondFlag) : (s.setCond c).cond = c := rfl
@[simp] theorem State.setCond_status (s : State) (c : CondFlag) : (s.setCond c).status = s.status := rfl
@[simp] theorem State.setCond_lastAddr (s : State) (c : CondFlag) : (s.setCond c).lastAddr = s.lastAddr := rfl
@[simp] theorem State.setCond_mem (s : State) (c : CondFlag) : (s.setCond c).mem = s.mem := rfl
@[simp] theorem State.setCond_trace (s : State) (c : CondFlag) : (s.setCond c).trace = s.trace := rfl

@[simp] theorem State.setStatus_get (s : State) (st : Status) (i : Reg) : (s.setStatus st).get i = s.get i := rfl
@[simp] theorem State.setStatus_cond (s : State) (st : Status) : (s.setStatus st).cond = s.cond := rfl
@[simp] theorem State.setStatus_status (s : State) (st : Status) : (s.setStatus st).status = st := rfl
@[simp] theorem State.setStatus_lastAddr (s : State) (st : Status) : (s.setStatus st).lastAddr = s.lastAddr := rfl
@[simp] theorem State.setStatus_mem (s : State) (st : Status) : (s.setStatus st).mem = s.mem := rfl
@[simp] theorem State.setStatus_trace (s : State) (st : Status) : (s.setStatus st).trace = s.trace := rfl

@[simp] theorem State.setMem_get (s : State) (m : Memory) (i : Reg) : (s.setMem m).get i = s.get i := rfl
@[simp] theorem State.setMem_cond (s : State) (m : Memory) : (s.setMem m).cond = s.cond := rfl
@[simp] theorem State.setMem_status (s : State) (m : Memory) : (s.setMem m).status = s.status := rfl
@[simp] theorem State.setMem_lastAddr (s : State) (m : Memory) : (s.setMem m).lastAddr = s.lastAddr := rfl
@[simp] theorem State.setMem_mem (s : State) (m : Memory) : (s.setMem m).mem = m := rfl
@[simp] theorem State.setMem_trace (s : State) (m : Memory) : (s.setMem m).trace = s.trace := rfl

@[simp] theorem State.observe_get (s : State) (e : Event) (i : Reg) : (s.observe e).get i = s.get i := rfl
@[simp] theorem State.observe_cond (s : State) (e : Event) : (s.observe e).cond = s.cond := rfl
@[simp] theorem State.observe_status (s : State) (e : Event) : (s.observe e).status = s.status := rfl
@[simp] theorem State.observe_lastAddr (s : State) (e : Event) : (s.observe e).lastAddr = s.lastAddr := rfl
@[simp] theorem State.observe_mem (s : State) (e : Event) : (s.observe e).mem = s.mem := rfl
@[simp] theorem State.observe_trace (s : State) (e : Event) : (s.observe e).trace = e :: s.trace := rfl
@[simp] theorem State.observe_pc (s : State) (e : Event) : (s.observe e).pc = s.pc := rfl
@[simp] theorem State.observe_memRead (s : State) (e : Event) (a : Int) : (s.observe e).memRead a = s.memRead a := rfl
@[simp] theorem State.observe_left (s : State) (e : Event) (a : Reg) : (s.observe e).left a = s.left a := rfl
@[simp] theorem State.observe_right (s : State) (e : Event) (b : Reg) (k : Int) :
    (s.observe e).right b k = s.right b k := rfl

@[simp] theorem State.raise_get (s : State) (r : FaultRecord) (i : Reg) : (s.raise r).get i = s.get i := rfl
@[simp] theorem State.raise_cond (s : State) (r : FaultRecord) : (s.raise r).cond = s.cond := rfl
@[simp] theorem State.raise_status (s : State) (r : FaultRecord) : (s.raise r).status = .faulted r := rfl
@[simp] theorem State.raise_lastAddr (s : State) (r : FaultRecord) : (s.raise r).lastAddr = s.lastAddr := rfl
@[simp] theorem State.raise_mem (s : State) (r : FaultRecord) : (s.raise r).mem = s.mem := rfl
@[simp] theorem State.raise_trace (s : State) (r : FaultRecord) : (s.raise r).trace = s.trace := rfl
@[simp] theorem State.raise_pc (s : State) (r : FaultRecord) : (s.raise r).pc = s.pc := rfl
@[simp] theorem State.raise_memRead (s : State) (r : FaultRecord) (a : Int) : (s.raise r).memRead a = s.memRead a := rfl

@[simp] theorem State.halt_get (s : State) (i : Reg) : s.halt.get i = s.get i := rfl
@[simp] theorem State.halt_cond (s : State) : s.halt.cond = s.cond := rfl
@[simp] theorem State.halt_status (s : State) : s.halt.status = .halted := rfl
@[simp] theorem State.halt_lastAddr (s : State) : s.halt.lastAddr = s.lastAddr := rfl
@[simp] theorem State.halt_mem (s : State) : s.halt.mem = s.mem := rfl
@[simp] theorem State.halt_trace (s : State) : s.halt.trace = s.trace := rfl
@[simp] theorem State.halt_pc (s : State) : s.halt.pc = s.pc := rfl
@[simp] theorem State.halt_memRead (s : State) (a : Int) : s.halt.memRead a = s.memRead a := rfl

@[simp] theorem State.advancePc_cond (s : State) : s.advancePc.cond = s.cond := State.put_cond ..
@[simp] theorem State.advancePc_status (s : State) : s.advancePc.status = s.status := State.put_status ..
@[simp] theorem State.advancePc_lastAddr (s : State) : s.advancePc.lastAddr = s.lastAddr := State.put_lastAddr ..
@[simp] theorem State.advancePc_mem (s : State) : s.advancePc.mem = s.mem := State.put_mem ..
@[simp] theorem State.advancePc_trace (s : State) : s.advancePc.trace = s.trace := State.put_trace ..

/-- What the registers read after the PC advance (R132). -/
theorem State.advancePc_get (s : State) (i : Reg) :
    s.advancePc.get i = if i = pcReg then s.get pcReg + 1 else s.get i := by
  unfold State.advancePc
  by_cases h : i = pcReg
  · subst h; simp [State.get_put_self s (by decide : pcReg ≠ 0)]
  · simp [State.get_put_ne _ h, h]

/-- What the registers read after the PC advance and a write to the target (R132, R134 d, R22). -/
theorem State.advancePc_put_get (s : State) (d r : Reg) (v : Word) :
    (s.advancePc.put d v).get r =
      if r = 0 then 0 else if r = d then v else if r = pcReg then s.get pcReg + 1 else s.get r := by
  rw [State.get_put, State.advancePc_get]

end Sys2Proof.Machine
end

