-- ==== Sys2Proof/Laws/Memory.lean ====
section
/-! SUPPORT. The laws of the word memory: a read after a write, and that every write keeps the canonical form. -/

namespace Sys2Proof.Machine

theorem Memory.get_erase_self (m : Memory) (a : Nat) : Memory.get (Memory.erase m a) a = unlistedWord := by
  induction m with
  | nil => rfl
  | cons c m ih =>
    by_cases h : c.1 = a
    · simpa [Memory.erase, h] using ih
    · simpa [Memory.erase, Memory.get, h] using ih

theorem Memory.get_erase_ne (m : Memory) {a b : Nat} (h : b ≠ a) :
    Memory.get (Memory.erase m a) b = Memory.get m b := by
  induction m with
  | nil => rfl
  | cons c m ih =>
    by_cases hc : c.1 = a
    · have : ¬ a = b := fun e => h e.symm
      simpa [Memory.erase, Memory.get, hc, this] using ih
    · by_cases hb : c.1 = b
      · subst hb; simp [Memory.erase, Memory.get, h]
      · simpa [Memory.erase, Memory.get, hc, hb] using ih

theorem Memory.mem_erase {m : Memory} {a : Nat} {c : Nat × Word} :
    c ∈ Memory.erase m a ↔ c ∈ m ∧ c.1 ≠ a := by
  simp [Memory.erase]

theorem Memory.get_insert (m : Memory) (a b : Nat) (w : Word) (h : ∀ c ∈ m, c.1 ≠ a) :
    Memory.get (Memory.insert m a w) b = if b = a then w else Memory.get m b := by
  induction m with
  | nil => simp [Memory.insert, Memory.get, eq_comm]
  | cons c m ih =>
    have hc : c.1 ≠ a := h c (by simp)
    have ih := ih (fun d hd => h d (by simp [hd]))
    by_cases hlt : a < c.1
    · simp [Memory.insert, hlt, Memory.get, eq_comm]
    · by_cases hb : c.1 = b
      · subst hb; simp [Memory.insert, hlt, Memory.get, hc]
      · simpa [Memory.insert, hlt, Memory.get, hb] using ih

/-- A read after a write gives the word written, and every other word is as before, on every list (R47). -/
theorem Memory.get_put (m : Memory) (a b : Nat) (w : Word) :
    Memory.get (Memory.put m a w) b = if b = a then w else Memory.get m b := by
  unfold Memory.put
  by_cases hw : w = unlistedWord
  · by_cases hb : b = a
    · subst hb; simp [hw, Memory.get_erase_self]
    · simp [hw, hb, Memory.get_erase_ne m hb]
  · rw [if_neg hw, Memory.get_insert _ _ _ _ (fun c hc => (Memory.mem_erase.mp hc).2)]
    by_cases hb : b = a
    · simp [hb]
    · simp [hb, Memory.get_erase_ne m hb]

theorem Memory.mem_insert {m : Memory} {a : Nat} {w : Word} {c : Nat × Word} :
    c ∈ Memory.insert m a w ↔ c = (a, w) ∨ c ∈ m := by
  induction m with
  | nil => simp [Memory.insert]
  | cons d m ih =>
    by_cases h : a < d.1
    · simp [Memory.insert, h]
    · simp only [Memory.insert, h, if_false, List.mem_cons, ih]; tauto

/-- An entry of a memory after a write is the new one or an old one. -/
theorem Memory.mem_put {m : Memory} {a : Nat} {w : Word} {c : Nat × Word} (h : c ∈ Memory.put m a w) :
    c = (a, w) ∨ c ∈ m := by
  unfold Memory.put at h
  split at h
  · exact .inr (Memory.mem_erase.mp h).1
  · exact (Memory.mem_insert.mp h).imp_right (fun h => (Memory.mem_erase.mp h).1)

theorem Memory.pairwise_insert {m : Memory} {a : Nat} {w : Word}
    (hm : m.Pairwise (fun c d => c.1 < d.1)) (ha : ∀ c ∈ m, c.1 ≠ a) :
    (Memory.insert m a w).Pairwise (fun c d => c.1 < d.1) := by
  induction m with
  | nil => simp [Memory.insert]
  | cons c m ih =>
    rw [List.pairwise_cons] at hm
    have hc : c.1 ≠ a := ha c (by simp)
    by_cases h : a < c.1
    · simp only [Memory.insert, h, if_true, List.pairwise_cons, List.mem_cons]
      refine ⟨?_, hm⟩
      rintro d (rfl | hd)
      · exact h
      · exact h.trans (hm.1 d hd)
    · simp only [Memory.insert, h, if_false, List.pairwise_cons]
      refine ⟨fun d hd => ?_, ih hm.2 (fun d hd => ha d (by simp [hd]))⟩
      rcases Memory.mem_insert.mp hd with rfl | hd
      · simp only; omega
      · exact hm.1 d hd

/-- A write keeps the canonical form. -/
theorem Memory.put_wf {m : Memory} (h : Memory.wf m) (a : Nat) (w : Word) : Memory.wf (Memory.put m a w) := by
  have he : (Memory.erase m a).Pairwise (fun c d => c.1 < d.1) := h.1.filter _
  refine ⟨?_, fun c hc => ?_⟩
  · unfold Memory.put
    split
    · exact he
    · exact Memory.pairwise_insert he (fun c hc => (Memory.mem_erase.mp hc).2)
  · unfold Memory.put at hc
    split at hc
    · exact h.2 c (Memory.mem_erase.mp hc).1
    · rename_i hw
      rcases Memory.mem_insert.mp hc with rfl | hc
      · exact hw
      · exact h.2 c (Memory.mem_erase.mp hc).1

theorem Memory.get_of_lt_all {m : Memory} {a : Nat} (h : ∀ c ∈ m, a < c.1) : Memory.get m a = unlistedWord := by
  induction m with
  | nil => rfl
  | cons c m ih =>
    have : c.1 ≠ a := by have := h c (by simp); omega
    simpa [Memory.get, this] using ih (fun d hd => h d (by simp [hd]))

/-- Two memories in canonical form that read alike are equal. -/
theorem Memory.wf_ext {m n : Memory} (hm : Memory.wf m) (hn : Memory.wf n)
    (h : ∀ a, Memory.get m a = Memory.get n a) : m = n := by
  induction m generalizing n with
  | nil =>
    cases n with
    | nil => rfl
    | cons d n => exact absurd (by simpa [Memory.get] using (h d.1).symm) (hn.2 d (by simp))
  | cons c m ih =>
    have hm' := List.pairwise_cons.mp hm.1
    cases n with
    | nil => exact absurd (by simpa [Memory.get] using h c.1) (hm.2 c (by simp))
    | cons d n =>
      have hn' := List.pairwise_cons.mp hn.1
      have hcd : c.1 = d.1 := by
        rcases lt_trichotomy c.1 d.1 with hlt | he | hlt
        · refine absurd ?_ (hm.2 c (by simp))
          have := Memory.get_of_lt_all (m := d :: n) (a := c.1) (by
            rintro e he
            rcases List.mem_cons.mp he with rfl | he
            · exact hlt
            · exact hlt.trans (hn'.1 e he))
          simpa [Memory.get] using (h c.1).trans this
        · exact he
        · refine absurd ?_ (hn.2 d (by simp))
          have := Memory.get_of_lt_all (m := c :: m) (a := d.1) (by
            rintro e he
            rcases List.mem_cons.mp he with rfl | he
            · exact hlt
            · exact hlt.trans (hm'.1 e he))
          simpa [Memory.get] using (h d.1).symm.trans this
      have hv : c.2 = d.2 := by simpa [Memory.get, hcd] using h c.1
      have htail : m = n := by
        refine ih ⟨hm'.2, fun e he => hm.2 e (by simp [he])⟩ ⟨hn'.2, fun e he => hn.2 e (by simp [he])⟩ fun a => ?_
        by_cases ha : c.1 = a
        · subst ha
          rw [Memory.get_of_lt_all hm'.1, Memory.get_of_lt_all (hcd ▸ hn'.1)]
        · simpa [Memory.get, ha, hcd ▸ ha] using h a
      rw [htail, Prod.ext hcd hv]

/-- The whole of a memory read: the listed word at a valid address, nothing elsewhere (R43). -/
theorem State.memRead_eq (s : State) (a : Int) :
    s.memRead a = if s.ValidAddr a then some (s.mem.get a.toNat) else none := rfl

theorem State.memRead_isSome (s : State) (a : Int) : (s.memRead a).isSome ↔ s.ValidAddr a := by
  unfold State.memRead; split <;> rename_i h <;> simpa using h

theorem State.validAddr_of_memRead {s : State} {a : Int} {w : Word} (h : s.memRead a = some w) : s.ValidAddr a :=
  (State.memRead_isSome s a).mp (by simp [h])

/-- Reads depend on the memory and its size alone. -/
theorem State.memRead_congr {s t : State} (hm : t.mem = s.mem) (hl : t.lastAddr = s.lastAddr) (a : Int) :
    t.memRead a = s.memRead a := by
  simp only [State.memRead, State.ValidAddr, hm, hl]

@[simp] theorem State.setCond_memRead (s : State) (c : CondFlag) (a : Int) : (s.setCond c).memRead a = s.memRead a := rfl
@[simp] theorem State.setStatus_memRead (s : State) (st : Status) (a : Int) :
    (s.setStatus st).memRead a = s.memRead a := rfl
@[simp] theorem State.put_memRead (s : State) (i : Reg) (v : Word) (a : Int) :
    (s.put i v).memRead a = s.memRead a := State.memRead_congr (by simp) (by simp) a
@[simp] theorem State.advancePc_memRead (s : State) (a : Int) : s.advancePc.memRead a = s.memRead a :=
  State.put_memRead ..

/-- What one word written to a valid address does to every read. -/
theorem State.memRead_setMem_put (s : State) {ea : Int} (h : s.ValidAddr ea) (w : Word) (a : Int) :
    (s.setMem (s.mem.put ea.toNat w)).memRead a = if a = ea then some w else s.memRead a := by
  have hv : (s.setMem (s.mem.put ea.toNat w)).ValidAddr a = s.ValidAddr a := rfl
  rw [State.memRead_eq, State.memRead_eq, State.setMem_mem, Memory.get_put, if_congr (iff_of_eq hv) rfl rfl]
  by_cases ha : a = ea
  · subst ha; rw [if_pos h, if_pos rfl, if_pos rfl]
  · by_cases hv : s.ValidAddr a
    · have : a.toNat ≠ ea.toNat := fun e => ha (by have := h.1; have := hv.1; omega)
      rw [if_pos hv, if_neg this, if_neg ha, if_pos hv]
    · rw [if_neg hv, if_neg ha, if_neg hv]

/-- All a memory write can do (R43): one word at a valid address, or nothing. -/
theorem State.memWrite_eq (s : State) (ea : Int) (w : Word) :
    s.memWrite ea w = if s.ValidAddr ea then some (s.setMem (s.mem.put ea.toNat w)) else none := rfl

end Sys2Proof.Machine
end

