-- ==== Sys2Proof/Laws/PerInstr.lean ====
section
/-! SUPPORT. Statements made of every instruction as syntax, one lemma per constructor: that its six fields determine it
(family Rebuild), and that its encoding holds its opcode's number (family OpcodeField). -/

namespace Sys2Proof.Laws

/-- An instruction is given by its opcode and its five fields (spec/00_scope.md R15). -/
def Rebuild.Statement (i : Instr) : Prop := i.op.instr i.pred i.src1 i.src2 i.target i.offset = i

theorem Rebuild.add (p : CondFlag) (a b d : Reg) (k : Int) : Rebuild.Statement (.add p a b d k) := rfl
theorem Rebuild.sub (p : CondFlag) (a b d : Reg) (k : Int) : Rebuild.Statement (.sub p a b d k) := rfl
theorem Rebuild.mul (p : CondFlag) (a b d : Reg) (k : Int) : Rebuild.Statement (.mul p a b d k) := rfl
theorem Rebuild.div (p : CondFlag) (a b d : Reg) (k : Int) : Rebuild.Statement (.div p a b d k) := rfl
theorem Rebuild.load (p : CondFlag) (a b d : Reg) (k : Int) : Rebuild.Statement (.load p a b d k) := rfl
theorem Rebuild.store (p : CondFlag) (a b d : Reg) (k : Int) : Rebuild.Statement (.store p a b d k) := rfl
theorem Rebuild.halt (p : CondFlag) (a b d : Reg) (k : Int) : Rebuild.Statement (.halt p a b d k) := rfl

/-- The encoding of an instruction holds its opcode's number in the opcode field (R61, R62). -/
def OpcodeField.Statement (i : Instr) : Prop :=
  ∀ w, encode i = some w → bitField w encoding.opPos encoding.opBits = opcodeNumber i.op

theorem opcodeField_of_encode (i : Instr) : OpcodeField.Statement i := by
  intro w h
  obtain ⟨⟨ho, hp, h1, h2, ht, -⟩, rfl⟩ := encodeFields_eq_some.mp h
  exact (bitField_packFields ho hp h1 h2 ht).1

theorem OpcodeField.add (p : CondFlag) (a b d : Reg) (k : Int) : OpcodeField.Statement (.add p a b d k) :=
  opcodeField_of_encode _
theorem OpcodeField.sub (p : CondFlag) (a b d : Reg) (k : Int) : OpcodeField.Statement (.sub p a b d k) :=
  opcodeField_of_encode _
theorem OpcodeField.mul (p : CondFlag) (a b d : Reg) (k : Int) : OpcodeField.Statement (.mul p a b d k) :=
  opcodeField_of_encode _
theorem OpcodeField.div (p : CondFlag) (a b d : Reg) (k : Int) : OpcodeField.Statement (.div p a b d k) :=
  opcodeField_of_encode _
theorem OpcodeField.load (p : CondFlag) (a b d : Reg) (k : Int) : OpcodeField.Statement (.load p a b d k) :=
  opcodeField_of_encode _
theorem OpcodeField.store (p : CondFlag) (a b d : Reg) (k : Int) : OpcodeField.Statement (.store p a b d k) :=
  opcodeField_of_encode _
theorem OpcodeField.halt (p : CondFlag) (a b d : Reg) (k : Int) : OpcodeField.Statement (.halt p a b d k) :=
  opcodeField_of_encode _

end Sys2Proof.Laws
end

