-- ==== Sys2Proof/Laws/Step.lean ====
section
/-! SUPPORT. Everything the shared operations, `exec` and `step` can do, said once; a proof about a step cites these and
unfolds nothing. -/

namespace Sys2Proof.Machine

theorem State.fits_of_validAddr {s : State} {a : Int} (h : s.ValidAddr a) : Fits32 a := by
  have := s.lastAddr.isLt
  exact ⟨by have := h.1; omega, by have := h.2; omega⟩

/-- The PC advance from a valid address is plain addition and never wraps (R31). -/
theorem State.advancePc_pc {s : State} (h : s.ValidAddr s.pc) : s.advancePc.pc = s.pc + 1 := by
  have hl := s.lastAddr.isLt
  have h1 : s.advancePc.get pcReg = s.get pcReg + 1 := by simp [State.advancePc_get]
  have hp : (s.get pcReg).toInt = s.pc := rfl
  have h0 : BitVec.toInt (1 : Word) = 1 := rfl
  unfold State.pc at h ⊢
  rw [h1, BitVec.toInt_add, h0, Int.bmod_eq_of_le]
  · have := h.1; norm_num; omega
  · have := h.2; norm_num; omega

/-- The data address is the exact sum, marked as an error when it does not fit in 32 bits (R117, R150). -/
theorem State.dataAddress_eq (s : State) {op : OpCode} (hop : op = .load ∨ op = .store) (a b : Reg) (k : Int) :
    s.dataAddress op a b k =
      if Fits32 (s.left a + s.right b k) then .ok (s.left a + s.right b k) else .error (s.left a + s.right b k) := by
  have he : exactValue op (s.left a) (s.right b k) = some (s.left a + s.right b k) := by
    rcases hop with rfl | rfl <;> rfl
  unfold State.dataAddress
  by_cases hf : Fits32 (s.left a + s.right b k)
  · rw [alu_of_fits he hf, if_pos hf]
    simp only [flagOf_ne_V, if_false, toInt_ofInt_of_fits hf]
  · rw [alu_of_overflow he hf, if_neg hf]; simp

/-- LOAD from a valid address (R151). -/
theorem State.loadWord_of_valid {s : State} {a b d : Reg} {k : Int} (h : s.ValidAddr (s.left a + s.right b k)) :
    s.loadWord a b d k = s.advancePc.put d (s.mem.get (s.left a + s.right b k).toNat) := by
  have hr : s.memRead (s.left a + s.right b k) = some (s.mem.get (s.left a + s.right b k).toNat) := if_pos h
  simp only [State.loadWord]
  rw [State.dataAddress_eq s (.inl rfl), if_pos (State.fits_of_validAddr h)]
  simp only [State.advancePc_memRead, hr]

/-- LOAD from any other address (R150, R172). -/
theorem State.loadWord_of_invalid {s : State} {a b d : Reg} {k : Int} (h : ¬ s.ValidAddr (s.left a + s.right b k)) :
    s.loadWord a b d k = s.advancePc.raise (.memory .load s.pc (s.left a + s.right b k)) := by
  have hr : s.memRead (s.left a + s.right b k) = none := if_neg h
  simp only [State.loadWord]
  rw [State.dataAddress_eq s (.inl rfl)]
  split <;> rename_i heq <;> split at heq <;> cases heq
  · rfl
  · simp only [State.advancePc_memRead, hr]

/-- STORE to a valid address (R152). -/
theorem State.storeWord_of_valid {s : State} {a b d : Reg} {k : Int} (h : s.ValidAddr (s.left a + s.right b k)) :
    s.storeWord a b d k =
      s.advancePc.setMem (s.mem.put (s.left a + s.right b k).toNat (s.advancePc.get d)) := by
  have hv : s.advancePc.ValidAddr (s.left a + s.right b k) := by
    simpa [State.ValidAddr] using h
  simp only [State.storeWord]
  rw [State.dataAddress_eq s (.inr rfl), if_pos (State.fits_of_validAddr h)]
  simp only [State.memWrite_eq]
  rw [if_pos hv]
  simp

/-- STORE to any other address (R150, R172). -/
theorem State.storeWord_of_invalid {s : State} {a b d : Reg} {k : Int} (h : ¬ s.ValidAddr (s.left a + s.right b k)) :
    s.storeWord a b d k = s.advancePc.raise (.memory .store s.pc (s.left a + s.right b k)) := by
  have hv : ¬ s.advancePc.ValidAddr (s.left a + s.right b k) := by
    simpa [State.ValidAddr] using h
  simp only [State.storeWord]
  rw [State.dataAddress_eq s (.inr rfl)]
  split <;> rename_i heq <;> split at heq <;> cases heq
  · rfl
  · simp only [State.memWrite_eq]; rw [if_neg hv]

/-- The effect of an instruction that passes the predication test, as a function of the state before it: `exec` is the
predication test around it. -/
def effect (i : Instr) : State → State :=
  match i with
  | .add _ a b d k => State.arithmetic .add a b d k
  | .sub _ a b d k => State.arithmetic .sub a b d k
  | .mul _ a b d k => State.arithmetic .mul a b d k
  | .div _ a b d k => State.arithmetic .div a b d k
  | .load _ a b d k => State.loadWord a b d k
  | .store _ a b d k => State.storeWord a b d k
  | .halt _ _ _ _ _ => fun s => s.advancePc.halt

/-- Every instruction ends in a next state, and which one (R100, R130). -/
theorem exec_eq (i : Instr) (s : State) :
    exec i s = .next (if CondFlag.overlaps i.pred s.cond then effect i s else s.advancePc) := by
  cases i <;> rfl

theorem exec_of_skipped {i : Instr} {s : State} (h : CondFlag.overlaps i.pred s.cond = false) :
    exec i s = .next s.advancePc := by rw [exec_eq, h]; rfl

theorem exec_of_executed {i : Instr} {s : State} (h : CondFlag.overlaps i.pred s.cond = true) :
    exec i s = .next (effect i s) := by rw [exec_eq, h]; rfl

/-- The five shapes of an executed instruction's effect (R135). -/
inductive Effect (i : Instr) (s : State) : State → Prop where
  /-- ADD, SUB, MUL or DIV. -/
  | arithmetic (h : i.op = .add ∨ i.op = .sub ∨ i.op = .mul ∨ i.op = .div) :
    Effect i s ((s.advancePc.put i.target (alu i.op (s.left i.src1) (s.right i.src2 i.offset)).1).setCond
      (alu i.op (s.left i.src1) (s.right i.src2 i.offset)).2)
  /-- LOAD from a valid address. -/
  | load (h : i.op = .load) (hv : s.ValidAddr (s.left i.src1 + s.right i.src2 i.offset)) :
    Effect i s (s.advancePc.put i.target (s.mem.get (s.left i.src1 + s.right i.src2 i.offset).toNat))
  /-- LOAD from any other address. -/
  | loadFault (h : i.op = .load) (hv : ¬ s.ValidAddr (s.left i.src1 + s.right i.src2 i.offset)) :
    Effect i s (s.advancePc.raise (.memory .load s.pc (s.left i.src1 + s.right i.src2 i.offset)))
  /-- STORE to a valid address. -/
  | store (h : i.op = .store) (hv : s.ValidAddr (s.left i.src1 + s.right i.src2 i.offset)) :
    Effect i s (s.advancePc.setMem
      (s.mem.put (s.left i.src1 + s.right i.src2 i.offset).toNat (s.advancePc.get i.target)))
  /-- STORE to any other address. -/
  | storeFault (h : i.op = .store) (hv : ¬ s.ValidAddr (s.left i.src1 + s.right i.src2 i.offset)) :
    Effect i s (s.advancePc.raise (.memory .store s.pc (s.left i.src1 + s.right i.src2 i.offset)))
  /-- HALT. -/
  | halt (h : i.op = .halt) : Effect i s s.advancePc.halt

/-- Everything an executed instruction can do. -/
theorem effect_cases (i : Instr) (s : State) : Effect i s (effect i s) := by
  cases i with
  | add p a b d k => exact .arithmetic (i := .add p a b d k) (.inl rfl)
  | sub p a b d k => exact .arithmetic (i := .sub p a b d k) (.inr (.inl rfl))
  | mul p a b d k => exact .arithmetic (i := .mul p a b d k) (.inr (.inr (.inl rfl)))
  | div p a b d k => exact .arithmetic (i := .div p a b d k) (.inr (.inr (.inr rfl)))
  | load p a b d k =>
    by_cases h : s.ValidAddr (s.left a + s.right b k)
    · rw [effect, State.loadWord_of_valid h]; exact .load (i := .load p a b d k) rfl h
    · rw [effect, State.loadWord_of_invalid h]; exact .loadFault (i := .load p a b d k) rfl h
  | store p a b d k =>
    by_cases h : s.ValidAddr (s.left a + s.right b k)
    · rw [effect, State.storeWord_of_valid h]; exact .store (i := .store p a b d k) rfl h
    · rw [effect, State.storeWord_of_invalid h]; exact .storeFault (i := .store p a b d k) rfl h
  | halt p a b d k => exact .halt (i := .halt p a b d k) rfl

/-- Fetch and decode succeed exactly on a valid PC whose word decodes, with the event of R129. -/
theorem State.fetchDecode_ok {s : State} {e : Event} :
    s.fetchDecode = .ok e ↔ e.addr = s.pc ∧ s.memRead s.pc = some e.word ∧ decode e.word = .ok e.ins := by
  obtain ⟨a, w, i⟩ := e
  cases hr : s.memRead s.pc with
  | none => simp [State.fetchDecode, hr]
  | some v =>
    cases hd : decode v with
    | error x =>
      simp only [State.fetchDecode, hr, hd, reduceCtorEq, Option.some.injEq, false_iff]
      rintro ⟨-, rfl, h⟩
      rw [hd] at h; cases h
    | ok j =>
      simp only [State.fetchDecode, hr, hd, Except.ok.injEq, Event.mk.injEq, Option.some.injEq]
      constructor
      · rintro ⟨rfl, rfl, rfl⟩; exact ⟨rfl, rfl, hd⟩
      · rintro ⟨rfl, rfl, h⟩; rw [hd] at h; exact ⟨rfl, rfl, by simpa using h⟩

/-- The two ways fetch and decode fail, in their order (R127, R128, R176). -/
theorem State.fetchDecode_error {s : State} {r : FaultRecord} :
    s.fetchDecode = .error r ↔
      (¬ s.ValidAddr s.pc ∧ r = .memory .fetch s.pc s.pc)
      ∨ ∃ w e, s.memRead s.pc = some w ∧ decode w = .error e ∧ r = .decode s.pc w := by
  cases hr : s.memRead s.pc with
  | none =>
    have hv : ¬ s.ValidAddr s.pc := fun h => by simp [State.memRead_eq, if_pos h] at hr
    simp only [State.fetchDecode, hr, Except.error.injEq]
    constructor
    · rintro rfl; exact .inl ⟨hv, rfl⟩
    · rintro (⟨-, rfl⟩ | ⟨w, e, h, -⟩)
      · rfl
      · cases h
  | some v =>
    have hv := State.validAddr_of_memRead hr
    cases hd : decode v with
    | error x =>
      simp only [State.fetchDecode, hr, hd, Except.error.injEq]
      constructor
      · rintro rfl; exact .inr ⟨v, x, rfl, hd, rfl⟩
      · rintro (⟨h, -⟩ | ⟨w, e, h, -, rfl⟩)
        · exact absurd hv h
        · cases h; rfl
    | ok j =>
      simp only [State.fetchDecode, hr, hd, reduceCtorEq, false_iff]
      rintro (⟨h, -⟩ | ⟨w, e, h, h', -⟩)
      · exact h hv
      · cases h; rw [hd] at h'; cases h'

/-- Everything a step that answers a next state can have done: a fault of the fetch or the decoding, a skipped
instruction, or an executed one (R135). -/
theorem step_cases {s t : State} (h : step s = .next t) :
    s.status = .ready ∧
      ((∃ r, s.fetchDecode = .error r ∧ t = s.raise r)
      ∨ (∃ e, s.fetchDecode = .ok e ∧ CondFlag.overlaps e.ins.pred s.cond = false ∧ t = (s.observe e).advancePc)
      ∨ (∃ e, s.fetchDecode = .ok e ∧ CondFlag.overlaps e.ins.pred s.cond = true
          ∧ t = effect e.ins (s.observe e) ∧ Effect e.ins (s.observe e) t)) := by
  unfold step at h
  cases hs : s.status with
  | halted => rw [hs] at h; cases h
  | faulted r => rw [hs] at h; cases h
  | ready =>
    refine ⟨rfl, ?_⟩
    rw [hs] at h
    cases hf : s.fetchDecode with
    | error r => rw [hf] at h; cases h; exact .inl ⟨r, rfl, rfl⟩
    | ok e =>
      rw [hf] at h
      cases ho : CondFlag.overlaps e.ins.pred s.cond with
      | false =>
        have h := (exec_of_skipped (s := s.observe e) ho).symm.trans h; cases h
        exact .inr (.inl ⟨e, rfl, ho, rfl⟩)
      | true =>
        have h := (exec_of_executed (s := s.observe e) ho).symm.trans h; cases h
        exact .inr (.inr ⟨e, rfl, ho, rfl, effect_cases _ _⟩)

/-- A step in ready whose word decodes runs it with its event sent. -/
theorem step_of_fetchDecode {s : State} {e : Event} (hs : s.status = .ready) (h : s.fetchDecode = .ok e) :
    step s = exec e.ins (s.observe e) := by
  simp only [step, hs, h]

/-- A step in ready whose fetch or decoding fails raises that fault and does nothing else. -/
theorem step_of_fetchDecode_error {s : State} {r : FaultRecord} (hs : s.status = .ready)
    (h : s.fetchDecode = .error r) : step s = .next (s.raise r) := by
  simp only [step, hs, h]

/-- `withFetchWord` places the word where the next step fetches it, from every state. -/
theorem State.withFetchWord_fetch (s : State) (nbits w : Nat) :
    (s.withFetchWord nbits w).status = .ready ∧
      (s.withFetchWord nbits w).memRead (s.withFetchWord nbits w).pc = some (tableWord nbits w) := by
  refine ⟨rfl, ?_⟩
  have hv : ∀ b : State, b.ValidAddr b.pc →
      ((b.setStatus .ready).setMem (b.mem.put b.pc.toNat (tableWord nbits w))).memRead b.pc
        = some (tableWord nbits w) := fun b hb => by
    have := State.memRead_setMem_put (b.setStatus .ready) (ea := b.pc) hb (tableWord nbits w) b.pc
    simpa using this
  unfold State.withFetchWord
  by_cases h : s.ValidAddr s.pc
  · rw [if_pos h]; exact hv s h
  · rw [if_neg h]
    refine hv _ ?_
    have : (s.put pcReg 0).pc = 0 := by
      unfold State.pc; rw [State.get_put_self s (by decide)]; rfl
    rw [this]; exact ⟨le_refl 0, by positivity⟩

/-- The word placed by `withFetchWord` is the instruction the next step runs. -/
theorem step_withFetchWord {s : State} {nbits w : Nat} {i : Instr} (h : decodeTableWord nbits w = some i) :
    ∃ e, e.ins = i ∧ step (s.withFetchWord nbits w) = exec i ((s.withFetchWord nbits w).observe e) := by
  have hd : decode (tableWord nbits w) = .ok i := by
    unfold decodeTableWord at h
    split at h
    · cases hd : decode (tableWord nbits w) with
      | error x => rw [hd] at h; cases h
      | ok j => rw [hd] at h; cases h; rfl
    · cases h
  obtain ⟨h1, h2⟩ := s.withFetchWord_fetch nbits w
  exact ⟨⟨_, _, i⟩, rfl, step_of_fetchDecode (e := ⟨_, _, i⟩) h1 (State.fetchDecode_ok.mpr ⟨rfl, h2, hd⟩)⟩

end Sys2Proof.Machine
end

