-- ==== Sys2Proof/Tests/Slice0.lean ====
section
/-! SUPPORT. Small tests of the model, each with its source in spec/, and one witness for the hypotheses of every
statement that has some. -/

namespace Sys2Proof.Tests

open Sys2Proof.Machine

/-! ### A small state, and what to look at after a step -/

/-- A ready state with 16 words of memory, as in spec/95_test_vectors.md 2.5: the PC, COND, some registers, some words;
every other register and word is 0. -/
def small (pc : Int) (cond : CondFlag) (xs : List (Reg × Int)) (mem : Memory) : State :=
  xs.foldl (fun s x => s.put x.1 (BitVec.ofInt 32 x.2))
    (((State.powerOn (Vector.replicate 15 0) ⟨15, by decide⟩ mem).setCond cond).put pcReg (BitVec.ofInt 32 pc))

/-- The state after one step; the state itself where no step is taken. -/
def after (s : State) : State :=
  match step s with
  | .next t => t
  | .fault _ => s
  | .refused _ => s

/-- A register, COND, the PC and STATUS after one step. -/
def look (s : State) (r : Reg) : Int × CondFlag × Int × Status :=
  (((after s).get r).toInt, (after s).cond, (after s).pc, (after s).status)

/-! ### WellFormed smoke: the offset check refuses what is out of range (R65, R69) -/

theorem test_wellFormed_offset_bounds :
    (Instr.add 15 0 0 1 (-1024)).WellFormed ∧ (Instr.halt 15 0 0 1 1023).WellFormed := by decide

theorem test_illFormed_offset_1024 : ¬ (Instr.add 15 0 0 1 1024).WellFormed := by decide

theorem test_illFormed_offset_minus_1025 : ¬ (Instr.store 15 0 0 1 (-1025)).WellFormed := by decide

/-! ### Decoding: words of spec/95_test_vectors.md 2.1 and 2.2, and words written out bit by bit from R61 and R62 -/

theorem test_decode_add_bits : decode 0b00000_1111_0000_0000_0001_00000000101#32 = .ok (.add 15 0 0 1 5) := by decide
theorem test_decode_sub_bits : decode 0b00001_0101_0001_0010_0011_11111111111#32 = .ok (.sub 5 1 2 3 (-1)) := by decide
theorem test_decode_mul_bits : decode 0b00010_0110_1111_1111_1111_01111111111#32 = .ok (.mul 6 15 15 15 1023) := by
  decide
theorem test_decode_div_bits : decode 0b00011_1000_0111_1000_1001_10000000000#32 = .ok (.div 8 7 8 9 (-1024)) := by
  decide
theorem test_decode_load_bits : decode 0b00100_0001_1010_1011_1100_00000000000#32 = .ok (.load 1 10 11 12 0) := by decide
theorem test_decode_store_bits : decode 0b00101_0010_0011_0000_1111_01000000000#32 = .ok (.store 2 3 0 15 512) := by decide
theorem test_decode_halt_bits : decode 0b00110_1111_0000_0000_0000_00000000000#32 = .ok (.halt 15 0 0 0 0) := by decide

/-- 2.2: words whose fields all differ. -/
theorem test_decode_mixed_words :
    decode 0x12345678#32 = .ok (.mul 4 6 8 10 (-392)) ∧ decode 0x2ABCDEF0#32 = .ok (.store 5 7 9 11 (-272))
    ∧ decode 0x0F0F0F0F#32 = .ok (.sub 14 1 14 1 (-241)) ∧ decode 0x21A2B007#32 = .ok (.load 3 4 5 6 7) := by decide

/-- 2.2: the zero word, the largest legal word, and the illegal words around it. -/
theorem test_decode_edges :
    decode 0x00000000#32 = .ok (.add 0 0 0 0 0) ∧ decode 0x37FFFFFF#32 = .ok (.halt 15 15 15 15 (-1))
    ∧ decode 0x38000000#32 = .error (.unknownOpcode 7) ∧ decode 0x7FFFFFFF#32 = .error (.unknownOpcode 15)
    ∧ decode 0xFFFFFFFF#32 = .error (.unknownOpcode 31) := by decide

/-- 2.1: the encoder gives the same words. -/
theorem test_encode_words :
    encode (.add 4 0 15 15 (-2)) = some 0x0207FFFE#32 ∧ encode (.mul 15 1 0 1 (-1)) = some 0x17880FFF#32
    ∧ encode (.store 15 15 15 15 (-1)) = some 0x2FFFFFFF#32 ∧ encode (.div 15 1 0 2 3) = some 0x1F881003#32 := by decide

/-- 2.1, last lines: what the encoder refuses. -/
theorem test_encode_refuses :
    encodeFields 0 15 0 0 0 1024 = none ∧ encodeFields 0 15 0 0 0 (-1025) = none ∧ encodeFields 0 15 16 0 0 0 = none
    ∧ encodeFields 0 16 0 0 0 0 = none ∧ encodeFields 7 15 0 0 0 0 = none := by decide

/-- The host's numbering of a table row is the word itself. -/
theorem test_decodeTableWord :
    decodeTableWord 32 0x30000000 = some (.halt 0 0 0 0 0) ∧ decodeTableWord 32 0x38000000 = none := by decide

/-! ### Rendering: spec/95_test_vectors.md 1.2, 2.1, 2.3 -/

theorem test_render_masks :
    CondFlag.render (CondFlag.union CondFlag.Z CondFlag.M) = "ZM" ∧ CondFlag.render 0b1010#4 = "MV"
    ∧ CondFlag.render 0b0111#4 = "ZMP" ∧ CondFlag.render CondFlag.P = "P"
    ∧ CondFlag.render (CondFlag.union CondFlag.Z (CondFlag.union CondFlag.M (CondFlag.union CondFlag.P CondFlag.V))) = "ALWAYS"
    ∧ CondFlag.render 0b0000#4 = "NEVER" := by decide

theorem test_render_instructions :
    (Instr.add 15 0 0 1 5).render = "ADD   r0,r0,r1[5]" ∧ (Instr.halt 0 0 0 0 0).render = "HALT/NEVER   r0,r0,r0[0]"
    ∧ (Instr.sub 5 1 2 3 (-1)).render = "SUB/ZP   r1,r2,r3[-1]"
    ∧ (Instr.div 8 7 8 9 (-1024)).render = "DIV/V   r7,r8,r9[-1024]" := by decide

/-! ### Predication: spec/95_test_vectors.md 2.3 -/

theorem test_overlaps :
    CondFlag.overlaps 5 CondFlag.P = true ∧ CondFlag.overlaps 3 CondFlag.P = false
    ∧ CondFlag.overlaps CondFlag.always CondFlag.V = true ∧ CondFlag.overlaps CondFlag.never CondFlag.always = false := by
  decide

/-! ### The ALU: the document's six examples (R118), and corners of 2.4 -/

theorem test_alu_document :
    alu .add 5 3 = (8, CondFlag.P) ∧ alu .add (-10) 10 = (0, CondFlag.Z) ∧ alu .sub 3 5 = (-2, CondFlag.M)
    ∧ alu .mul 0 22 = (0, CondFlag.Z) ∧ alu .div 5 3 = (1, CondFlag.P) ∧ alu .div 12 0 = (0, CondFlag.V) := by decide

theorem test_alu_overflow :
    alu .add 2147483647 1 = (0, CondFlag.V) ∧ alu .add (-2147483648) 2147483648 = (0, CondFlag.Z)
    ∧ alu .sub 0 (-2147483648) = (0, CondFlag.V) ∧ alu .mul 65536 (-32768) = (0x80000000, CondFlag.M)
    ∧ alu .mul 46341 46341 = (0, CondFlag.V) ∧ alu .div (-2147483648) (-1) = (0, CondFlag.V) := by decide

theorem test_alu_floor :
    alu .div (-7) 2 = (-4, CondFlag.M) ∧ alu .div 7 (-2) = (-4, CondFlag.M) ∧ alu .div (-7) (-2) = (3, CondFlag.P)
    ∧ alu .div 1 (-2) = (-1, CondFlag.M) ∧ alu .div (-5) 2147483653 = (-1, CondFlag.M)
    ∧ alu .div (-2147483648) 2147483647 = (-2, CondFlag.M) := by decide

theorem test_alu_address_and_halt :
    alu .store (-5) 2 = (-3, CondFlag.M) ∧ alu .load 2147483647 1 = (0, CondFlag.V) ∧ alu .halt 123 (-5) = (0, CondFlag.Z) := by
  decide

/-! ### One step: the rows of spec/95_test_vectors.md 2.5 -/

theorem test_step_add :
    look (small 3 CondFlag.always [(2, 10), (4, -3)] [(3, 0x07921807)]) 3 = (14, CondFlag.P, 4, .ready) := by decide

theorem test_step_add_jump :
    look (small 4 CondFlag.P [] [(4, 0x0207FFFE)]) 0 = (0, CondFlag.P, 2, .ready)
    ∧ look (small 4 CondFlag.Z [] [(4, 0x0207FFFE)]) 0 = (0, CondFlag.Z, 5, .ready) := by decide

theorem test_step_add_target_r0 :
    look (small 0 CondFlag.always [] [(0, 0x07800007)]) 0 = (0, CondFlag.P, 1, .ready) := by decide

theorem test_step_sub : look (small 0 CondFlag.P [(1, 5)] [(0, 0x0F880801)]) 1 = (4, CondFlag.P, 1, .ready) := by decide

theorem test_step_sub_source_r15 :
    look (small 9 CondFlag.Z [] [(9, 0x0FF81000)]) 2 = (9, CondFlag.P, 10, .ready) := by decide

theorem test_step_mul_overflow :
    look (small 0 CondFlag.always [(1, 65536), (2, 32768)] [(0, 0x17909800)]) 3 = (0, CondFlag.V, 1, .ready) := by decide

theorem test_step_div_by_zero :
    look (small 1 CondFlag.P [(1, 12), (2, 5)] [(1, 0x1F881000)]) 2 = (0, CondFlag.V, 2, .ready) := by decide

theorem test_step_div_floor :
    look (small 0 CondFlag.always [(1, -7)] [(0, 0x1F881002)]) 2 = (-4, CondFlag.M, 1, .ready) := by decide

theorem test_step_load :
    look (small 2 CondFlag.V [] [(2, 0x27879003), (5, 0xFFFFFFFE)]) 2 = (-2, CondFlag.V, 3, .ready)
    ∧ look (small 2 CondFlag.always [] [(2, 0x27879003), (5, 0xFFFFFFFE)]) 2 = (-2, CondFlag.always, 3, .ready)
    ∧ look (small 1 CondFlag.P [] [(1, 0x27807807), (7, 0x00000003)]) 15 = (3, CondFlag.P, 3, .ready) := by decide

theorem test_step_load_invalid :
    look (small 1 CondFlag.P [(1, 16), (2, 9)] [(1, 0x27881000)]) 2
      = (9, CondFlag.P, 2, .faulted (.memory .load 1 16)) := by decide

theorem test_step_store :
    (after (small 1 CondFlag.P [(1, 42)] [(1, 0x2F878804)])).mem = [(1, 0x2F878804), (5, 0x0000002A)]
    ∧ (after (small 2 CondFlag.P [] [(2, 0x2F807806)])).memRead 6 = some 3 := by decide

theorem test_step_store_invalid :
    look (small 1 CondFlag.P [(1, 42)] [(1, 0x2F800FFF)]) 1 = (42, CondFlag.P, 2, .faulted (.memory .store 1 (-1))) := by
  decide

theorem test_step_halt : look (small 6 CondFlag.P [] [(6, 0x37800000)]) 0 = (0, CondFlag.P, 7, .halted) := by decide

theorem test_step_halt_skipped :
    look (small 5 CondFlag.P [] [(5, 0x30000000)]) 0 = (0, CondFlag.P, 6, .ready)
    ∧ look (small 0 CondFlag.P [] [(0, 0x30800000)]) 0 = (0, CondFlag.P, 1, .ready) := by decide

theorem test_step_illegal_word :
    look (small 1 CondFlag.P [] [(1, 0xFFFFFFFF)]) 0 = (0, CondFlag.P, 1, .faulted (.decode 1 0xFFFFFFFF))
    ∧ (after (small 1 CondFlag.P [] [(1, 0xFFFFFFFF)])).trace = [] := by decide

theorem test_step_fetch_outside :
    look (small 16 CondFlag.P [] []) 0 = (0, CondFlag.P, 16, .faulted (.memory .fetch 16 16))
    ∧ look (small (-1) CondFlag.P [] []) 0 = (0, CondFlag.P, -1, .faulted (.memory .fetch (-1) (-1))) := by decide

/-- R180, R129: the event of a skipped instruction. -/
theorem test_step_event :
    (after (small 5 CondFlag.P [] [(5, 0x30000000)])).trace = [⟨5, 0x30000000, .halt 0 0 0 0 0⟩] := by decide

/-- R34: the reset state. -/
theorem test_reset :
    State.reset.cond = 0b1111#4 ∧ State.reset.halted = false ∧ State.reset.status = .ready ∧ State.reset.get 0 = 0
    ∧ State.reset.memWords = 2147483647 := by decide

/-- A word placed by the host's aid is the first instruction after reset (spec/95_test_vectors.md 2.1, first word). -/
theorem test_withFetchWord :
    look (State.reset.withFetchWord 32 0x07800805) 1 = (5, CondFlag.P, 1, .ready) := by decide

/-- Two states are compared by Lean itself: writing what an unlisted word reads as takes its entry away. -/
theorem test_states_compare :
    (small 0 CondFlag.P [] [(3, 7)]).memWrite 3 0 = some (small 0 CondFlag.P [] [])
    ∧ small 0 CondFlag.P [(1, 1)] [] ≠ small 0 CondFlag.P [] [] := by decide

/-- R192: the second run of program N starts from COND ALWAYS and keeps the registers. -/
theorem test_startRun :
    ((small 2 CondFlag.V [(2, 55)] []).startRun 2).map (fun s => (s.cond, s.pc, s.get 2)) = some (15#4, 2, 55#32)
    ∧ (small 2 CondFlag.V [] []).startRun 2147483648 = none := by decide

/-! ### Witnesses: a concrete state and operands that meet the hypotheses of each statement -/

theorem witness_EncodeAndDecodeAreMutualInverses :
    (Instr.mul 6 15 15 15 1023).WellFormed ∧ (Instr.div 8 7 8 9 (-1024)).WellFormed
    ∧ (BitVec.extractLsb' 27 5 0x37FFFFFF#32).toNat ≤ 6
    ∧ decode 0x37FFFFFF#32 = .ok (.halt 15 15 15 15 (-1)) := by decide

theorem witness_DecodeReadsEveryFieldAtItsPlace :
    (BitVec.extractLsb' 27 5 0x37FFFFFF#32).toNat ≤ 6 ∧ ¬ (BitVec.extractLsb' 27 5 0x38000000#32).toNat ≤ 6 := by decide

theorem witness_EncoderPacksInRangeFieldsAndRefusesTheRest :
    (6 ≤ 6 ∧ 15 ≤ 15 ∧ 15 ≤ 15 ∧ 15 ≤ 15 ∧ 15 ≤ 15 ∧ (-1024 : Int) ≤ 1023 ∧ (1023 : Int) ≤ 1023)
    ∧ ¬ (1024 : Int) ≤ 1023 ∧ (Instr.add 0 0 0 0 (-1024)).WellFormed ∧ ¬ (Instr.add 0 0 0 0 (-1025)).WellFormed := by decide

theorem witness_AluGivesTheExactValueOrZeroWithV :
    ¬ (OpCode.div = .div ∧ (2 : Int) = 0) ∧ IsExactValue .div (-7) 2 (-4) ∧ IsExactValue .div 7 (-2) (-4)
    ∧ IsExactValue .add 2147483647 0 2147483647 ∧ IsExactValue .add 2147483647 1 2147483648 := by
  refine ⟨by decide, .inl ⟨by decide, by decide, fun q h => by omega⟩, .inr ⟨by decide, by decide, fun q h => by omega⟩,
    rfl, rfl⟩

theorem witness_SkippedInstructionOnlyAdvancesThePc :
    (Instr.halt 1 0 0 0 0).pred &&& (small 0 CondFlag.P [] []).cond = 0b0000#4
    ∧ (Instr.store 0 0 0 0 0).pred &&& State.reset.cond = 0b0000#4 := by decide

theorem witness_NeverIsSkippedAndAlwaysExecutes :
    (Instr.load 0 1 2 3 0).pred = 0b0000#4 ∧ State.reset.CondLegal ∧ (small 0 CondFlag.V [] []).CondLegal := by decide

theorem witness_HaltExecutesExactlyAsItsPredicateSays :
    State.reset.status = .ready ∧ State.reset.cond = CondFlag.always ∧ (small 0 CondFlag.Z [] []).status = .ready
    ∧ (small 0 CondFlag.Z [] []).cond = CondFlag.Z ∧ (small 0 CondFlag.M [] []).cond = CondFlag.M
    ∧ (small 0 CondFlag.P [] []).cond = CondFlag.P ∧ (small 0 CondFlag.V [] []).cond = CondFlag.V := by decide

/-- For AddWritesTheExactSum, SubWritesTheExactDifference, MulWritesTheExactProduct and DivWritesTheFlooredQuotient: the test passes; a divisor that is 0 and one that is not; an offset at each
end of its range. -/
theorem witness_arithmetic_statements :
    (4#4 : CondFlag) &&& (small 0 CondFlag.P [(1, 5)] []).cond ≠ 0b0000#4
    ∧ (-5 : Int) + ((small 0 CondFlag.P [(1, 5)] []).get 1).toInt = 0
    ∧ (-4 : Int) + ((small 0 CondFlag.P [(1, 5)] []).get 1).toInt ≠ 0
    ∧ OffsetInRange (-1024) ∧ OffsetInRange 1023 := by decide

theorem witness_AddToThePcJumpsRelativeToItsOwnAddress :
    (small 4 CondFlag.P [] [(4, 0x0207FFFE)]).status = .ready
    ∧ (small 4 CondFlag.P [] [(4, 0x0207FFFE)]).memRead (small 4 CondFlag.P [] [(4, 0x0207FFFE)]).pc = some 0x0207FFFE
    ∧ decode 0x0207FFFE = .ok (.add 4 0 15 15 (-2))
    ∧ (4#4 : CondFlag) &&& (small 4 CondFlag.P [] [(4, 0x0207FFFE)]).cond ≠ 0b0000#4
    ∧ (small 4 CondFlag.P [] [(4, 0x0207FFFE)]).pc + -2 ≤ 2147483647 := by decide

/-- The other clause: the last address of the largest memory, and a jump beyond 32 bits. -/
theorem witness_AddToThePcJumpsRelativeToItsOwnAddress_overflow :
    let s := (State.reset.put pcReg 2147483646#32).setMem [(2147483646, 0x0787FBFF)]
    s.status = .ready ∧ s.memRead s.pc = some 0x0787FBFF ∧ decode 0x0787FBFF = .ok (.add 15 0 15 15 1023)
      ∧ (15#4 : CondFlag) &&& s.cond ≠ 0b0000#4 ∧ ¬ s.pc + 1023 ≤ 2147483647 := by decide

/-- A LOAD from address 15, the last valid one; an address one past it, and one beyond 32 bits. -/
theorem witness_LoadWritesTheWordAtTheAddressOrFaults :
    (15#4 : CondFlag) &&& (small 0 CondFlag.P [(1, 15)] []).cond ≠ 0b0000#4
    ∧ (small 0 CondFlag.P [(1, 15)] [(15, 7)]).memRead
        (((small 0 CondFlag.P [(1, 15)] [(15, 7)]).get 1).toInt + (0 + ((small 0 CondFlag.P [(1, 15)] [(15, 7)]).get 0).toInt))
        = some 7
    ∧ ¬ (0 ≤ (16 : Int) ∧ (16 : Int) ≤ ((small 0 CondFlag.P [(1, 15)] []).memWords : Int) - 1)
    ∧ (16 : Int) = ((small 0 CondFlag.P [(1, 15)] []).get 1).toInt + (1 + ((small 0 CondFlag.P [(1, 15)] []).get 0).toInt)
    ∧ (4294967294 : Int) = ((small 0 CondFlag.P [(1, 2147483647)] []).get 1).toInt
        + (0 + ((small 0 CondFlag.P [(1, 2147483647)] []).get 1).toInt) := by decide

/-- A STORE to address 0 and to address 15, and to -1. -/
theorem witness_StoreWritesTheRegisterAtTheAddressOrFaults :
    (15#4 : CondFlag) &&& (small 0 CondFlag.P [(1, 15)] []).cond ≠ 0b0000#4
    ∧ (15 : Int) = ((small 0 CondFlag.P [(1, 15)] []).get 1).toInt + (0 + ((small 0 CondFlag.P [(1, 15)] []).get 0).toInt)
    ∧ (15 : Int) ≤ ((small 0 CondFlag.P [(1, 15)] []).memWords : Int) - 1
    ∧ (0 : Int) = ((small 0 CondFlag.P [(1, 15)] []).get 0).toInt + (0 + ((small 0 CondFlag.P [(1, 15)] []).get 0).toInt)
    ∧ ¬ (0 ≤ (-1 : Int) ∧ (-1 : Int) ≤ ((small 0 CondFlag.P [(1, 15)] []).memWords : Int) - 1) := by decide

theorem witness_StoreThenLoadRoundTrip :
    let s := small 1 CondFlag.P [(1, 42)] [(1, 0x2F878804)]
    (15#4 : CondFlag) &&& s.cond ≠ 0b0000#4 ∧ (s.get 0).toInt + (4 + (s.get 15).toInt) = 5 ∧ s.ValidAddr 5
      ∧ exec (.store 15 0 15 1 4) s = .next (s.storeWord 0 15 1 4)
      ∧ (15#4 : CondFlag) &&& (s.storeWord 0 15 1 4).cond ≠ 0b0000#4
      ∧ ((s.storeWord 0 15 1 4).get 0).toInt + (3 + ((s.storeWord 0 15 1 4).get 15).toInt) = 5 := by
  refine ⟨by decide, by decide, by decide, rfl, by decide, by decide⟩

/-- Program K, step 2 (spec/95_test_vectors.md). -/
theorem witness_StoreIsSeenByTheVeryNextFetch :
    let s := small 1 CondFlag.always [(1, 931135488)] [(1, 0x2F878801), (2, 0xFFFFFFFF), (3, 0x37800000)]
    s.status = .ready ∧ s.memRead s.pc = some 0x2F878801 ∧ decode 0x2F878801 = .ok (.store 15 0 15 1 1)
      ∧ (15#4 : CondFlag) &&& s.cond ≠ 0b0000#4 ∧ (s.get 0).toInt + (1 + (s.get 15).toInt) = s.pc + 1
      ∧ s.ValidAddr (s.pc + 1) ∧ (0x37800000 : Word) = (if (1 : Reg) = pcReg then s.get pcReg + 1 else s.get 1)
      ∧ decode 0x37800000 = .ok (.halt 15 0 0 0 0) := by decide

theorem witness_HaltEndsTheRunWithThePcAdvanced :
    (15#4 : CondFlag) &&& (small 6 CondFlag.P [] []).cond ≠ 0b0000#4
    ∧ (small 6 CondFlag.P [] []).status = .ready ∧ (1#4 : CondFlag) &&& (small 6 CondFlag.P [] []).cond = 0b0000#4 := by decide

theorem witness_StepRunsTheDecodedInstruction :
    let s := small 0 CondFlag.P [(1, 5)] [(0, 0x0F880801)]
    s.status = .ready ∧ s.memRead s.pc = some 0x0F880801 ∧ decode 0x0F880801 = .ok (.sub 15 1 0 1 1) := by decide

/-- The last valid address and the one past it. -/
theorem witness_FetchReadsTheWordAtThePcOrFaults :
    (small 15 CondFlag.P [] []).status = .ready ∧ (small 15 CondFlag.P [] []).pc ≤ (small 15 CondFlag.P [] []).memWords - 1
    ∧ (small 16 CondFlag.P [] []).status = .ready
    ∧ ¬ (0 ≤ (small 16 CondFlag.P [] []).pc ∧ (small 16 CondFlag.P [] []).pc ≤ ((small 16 CondFlag.P [] []).memWords : Int) - 1)
    := by decide

theorem witness_IllegalWordFaultsWhateverItsOtherBits :
    let s := small 0 CondFlag.P [] [(0, 0x38000000)]
    s.status = .ready ∧ s.memRead s.pc = some 0x38000000 ∧ 7 ≤ (BitVec.extractLsb' 27 5 0x38000000#32).toNat := by decide

theorem witness_NeverPredicatedWordOnlyAdvancesThePc :
    let s := small 5 CondFlag.P [] [(5, 0x30000000)]
    s.status = .ready ∧ s.memRead s.pc = some 0x30000000 ∧ (BitVec.extractLsb' 27 5 0x30000000#32).toNat ≤ 6
      ∧ BitVec.extractLsb' 23 4 0x30000000#32 = 0b0000#4 := by decide

theorem witness_StepIsTakenExactlyInReady :
    State.reset.status = .ready ∧ State.reset.halt.status = .halted
    ∧ (State.reset.raise (.decode 0 0xFFFFFFFF)).status = .faulted (.decode 0 0xFFFFFFFF) := by decide

/-- For FaultsArePrecise and FaultRecordTellsTheFirstFailingStage: one step of each kind that faults. -/
theorem witness_faulting_steps :
    let f := small 16 CondFlag.P [] []
    let d := small 1 CondFlag.P [] [(1, 0xFFFFFFFF)]
    let l := small 1 CondFlag.P [(1, 16)] [(1, 0x27881000)]
    let s := small 1 CondFlag.P [] [(1, 0x2F800FFF)]
    (step f = .next (after f) ∧ (after f).status = .faulted (.memory .fetch 16 16))
      ∧ (step d = .next (after d) ∧ (after d).status = .faulted (.decode 1 0xFFFFFFFF))
      ∧ (step l = .next (after l) ∧ (after l).status = .faulted (.memory .load 1 16))
      ∧ (step s = .next (after s) ∧ (after s).status = .faulted (.memory .store 1 (-1))) :=
  ⟨⟨rfl, by decide⟩, ⟨rfl, by decide⟩, ⟨rfl, by decide⟩, ⟨rfl, by decide⟩⟩

/-- For CondIsWrittenOnlyByExecutedArithmetic, RegisterIsWrittenOnlyAsATarget, EveryDecodedInstructionIsObservedOnce and
ObserversDoNotAffectExecution (the ADD), MemoryIsWrittenOnlyByAnExecutedStore (the STORE) and OnlyAnExecutedHaltHalts (the
HALT). -/
theorem witness_changing_steps :
    let a := small 3 CondFlag.always [(2, 10), (4, -3)] [(3, 0x07921807)]
    let m := small 1 CondFlag.P [(1, 42)] [(1, 0x2F878804)]
    let h := small 6 CondFlag.P [] [(6, 0x37800000)]
    (step a = .next (after a) ∧ (3 : Reg) ≠ pcReg ∧ (after a).get 3 ≠ a.get 3 ∧ (after a).cond ≠ a.cond
        ∧ a.memRead a.pc = some 0x07921807 ∧ decode 0x07921807 = .ok (.add 15 2 4 3 7))
      ∧ (step m = .next (after m) ∧ (after m).memRead 5 ≠ m.memRead 5)
      ∧ (step h = .next (after h) ∧ (after h).status = .halted) :=
  ⟨⟨rfl, by decide⟩, ⟨rfl, by decide⟩, ⟨rfl, by decide⟩⟩

/-- The other two clauses of EveryDecodedInstructionIsObservedOnce. -/
theorem witness_unobserved_steps :
    let f := small 16 CondFlag.P [] []
    let d := small 1 CondFlag.P [] [(1, 0xFFFFFFFF)]
    (step f = .next (after f) ∧ f.memRead f.pc = none)
      ∧ (step d = .next (after d) ∧ d.memRead d.pc = some 0xFFFFFFFF ∧ decode 0xFFFFFFFF = .error (.unknownOpcode 31)) :=
  ⟨⟨rfl, by decide⟩, ⟨rfl, by decide⟩⟩

theorem witness_StepKeepsTheInvariant :
    let s := small 1 CondFlag.P [(1, 42)] [(1, 0x2F878804)]
    s.Inv ∧ step s = .next (after s) :=
  ⟨⟨⟨by decide, by decide⟩, by decide, trivial⟩, rfl⟩

theorem witness_PowerOnMeetsTheInvariant :
    Memory.wf [(0, 0x07800805), (15, 1)] ∧ ∀ c ∈ ([(0, 0x07800805), (15, 1)] : Memory), c.1 ≤ 15 := by decide

/-- For PowerOnAndRunStartLeaveTheSpecsValues, RunStartResetsStatusCondAndPc, RunEndsExactlyWhenStatusLeavesReady and
EveryStateOfARunMeetsTheInvariant. -/
theorem witness_run_statements :
    let s := small 9 CondFlag.V [(2, 55)] [(2, 0x00801007), (3, 0x37800000)]
    (s.startRun 2).isSome ∧ (s.startRun (-2147483648)).isSome ∧ s.startRun 2147483648 = none ∧ s.MemLegal
      ∧ (s.run 2 2).isSome ∧ (State.runLoop 0 s).status = .ready
      ∧ (State.runLoop 1 (small 6 CondFlag.P [] [(6, 0x37800000)])).status ≠ .ready := by decide

end Sys2Proof.Tests
end

section
/-! PROOF. The state's own statements (spec/10_state.md): what a step can do to COND, the registers, STATUS and the memory,
each said once of an executed instruction's effect (`Effect`) and lifted to the step by `step_cases`. -/

namespace Sys2Proof

/-! ### The flag of the ALU -/

theorem flagOf_cases (e : Int) : flagOf e = CondFlag.Z ∨ flagOf e = CondFlag.M ∨ flagOf e = CondFlag.P := by
  unfold flagOf
  split
  · exact .inl rfl
  · split
    · exact .inr (.inl rfl)
    · exact .inr (.inr rfl)

/-- The ALU's flag is one of the four single bits (R109). -/
theorem alu_flag_cases (op : OpCode) (a b : Int) :
    (alu op a b).2 = CondFlag.Z ∨ (alu op a b).2 = CondFlag.M ∨ (alu op a b).2 = CondFlag.P
      ∨ (alu op a b).2 = CondFlag.V := by
  cases he : exactValue op a b with
  | none => exact .inr (.inr (.inr (by rw [alu_of_none he])))
  | some e =>
    by_cases hf : Fits32 e
    · rw [alu_of_fits he hf]
      exact (flagOf_cases e).imp_right (Or.imp_right .inl)
    · exact .inr (.inr (.inr (by rw [alu_of_overflow he hf])))

end Sys2Proof

namespace Sys2Proof.Machine

/-! ### The instruction at an address -/

/-- Whether an instruction executes at an address depends on the memory's words and COND alone. -/
theorem State.executesAt_congr {s t : State} (hm : ∀ a, t.memRead a = s.memRead a) (hc : t.cond = s.cond) (a : Int)
    (op : OpCode) : t.ExecutesAt a op ↔ s.ExecutesAt a op := by
  simp only [State.ExecutesAt, hm, hc]

@[simp] theorem State.observe_executesAt (s : State) (e : Event) (a : Int) (op : OpCode) :
    (s.observe e).ExecutesAt a op ↔ s.ExecutesAt a op := Iff.rfl
@[simp] theorem State.advancePc_executesAt (s : State) (a : Int) (op : OpCode) :
    s.advancePc.ExecutesAt a op ↔ s.ExecutesAt a op :=
  State.executesAt_congr s.advancePc_memRead s.advancePc_cond a op

/-- What was fetched, decoded and passes the predication test executes at the PC. -/
theorem State.executesAt_of_fetchDecode {s : State} {e : Event} (h : s.fetchDecode = .ok e)
    (ho : CondFlag.overlaps e.ins.pred s.cond = true) : s.ExecutesAt s.pc e.ins.op := by
  obtain ⟨-, hr, hd⟩ := State.fetchDecode_ok.mp h
  exact ⟨e.word, e.ins, hr, hd, rfl, ho⟩

theorem State.validAddr_of_fetchDecode {s : State} {e : Event} (h : s.fetchDecode = .ok e) : s.ValidAddr s.pc := by
  obtain ⟨-, hr, -⟩ := State.fetchDecode_ok.mp h
  exact State.validAddr_of_memRead hr

/-! ### When what STATUS says is true, by STATUS -/

theorem State.statusTrue_of_ready {s : State} (h : s.status = .ready) : s.StatusTrue := by
  simp [State.StatusTrue, h]

theorem State.halt_statusTrue {s : State} : s.halt.StatusTrue ↔ s.ExecutesAt (s.pc - 1) .halt := Iff.rfl

theorem State.raise_decode_statusTrue {s : State} {a : Int} {w : Word} :
    (s.raise (.decode a w)).StatusTrue ↔ s.pc = a ∧ s.memRead a = some w ∧ ∃ e, decode w = .error e := Iff.rfl

theorem State.raise_fetch_statusTrue {s : State} {a info : Int} :
    (s.raise (.memory .fetch a info)).StatusTrue ↔ s.pc = a ∧ info = a ∧ ¬ s.ValidAddr info := Iff.rfl

theorem State.raise_load_statusTrue {s : State} {a info : Int} :
    (s.raise (.memory .load a info)).StatusTrue ↔ s.pc = a + 1 ∧ ¬ s.ValidAddr info ∧ s.ExecutesAt a .load := Iff.rfl

theorem State.raise_store_statusTrue {s : State} {a info : Int} :
    (s.raise (.memory .store a info)).StatusTrue ↔ s.pc = a + 1 ∧ ¬ s.ValidAddr info ∧ s.ExecutesAt a .store := Iff.rfl

/-! ### The legal memory -/

theorem State.MemLegal.congr {s t : State} (h : s.MemLegal) (hm : t.mem = s.mem) (hl : t.lastAddr = s.lastAddr) :
    t.MemLegal := by
  simpa only [State.MemLegal, hm, hl] using h

/-- A word written to a valid address keeps the memory legal (R42, R47). -/
theorem State.MemLegal.setMem_put {s : State} (h : s.MemLegal) {ea : Int} (hv : s.ValidAddr ea) (w : Word) :
    (s.setMem (s.mem.put ea.toNat w)).MemLegal := by
  obtain ⟨hwf, hin⟩ := h
  refine ⟨Memory.put_wf hwf _ _, fun c hc => ?_⟩
  rcases Memory.mem_put hc with rfl | hc
  · exact Int.toNat_le.mpr hv.2
  · exact hin c hc

/-! ### What an executed instruction does to each piece of the state -/

/-- COND is kept, or it is the ALU's flag of an arithmetic instruction (R27, R140). -/
theorem Effect.cond {i : Instr} {s t : State} (h : Effect i s t) :
    t.cond = s.cond ∨ ((i.op = .add ∨ i.op = .sub ∨ i.op = .mul ∨ i.op = .div)
      ∧ t.cond = (alu i.op (s.left i.src1) (s.right i.src2 i.offset)).2) := by
  cases h with
  | arithmetic hop => exact .inr ⟨hop, rfl⟩
  | load | loadFault | store | storeFault | halt => exact .inl (by simp)

/-- A register that is neither the PC nor the target of an arithmetic instruction or a LOAD is kept (R26). -/
theorem Effect.target_of_get_ne {i : Instr} {s t : State} (h : Effect i s t) {r : Reg} (hpc : r ≠ pcReg)
    (hne : t.get r ≠ s.get r) :
    i.target = r ∧ (i.op = .add ∨ i.op = .sub ∨ i.op = .mul ∨ i.op = .div ∨ i.op = .load) := by
  have hadv : s.advancePc.get r = s.get r := by simp [State.advancePc_get, hpc]
  have hput {v : Word} (hv : (s.advancePc.put i.target v).get r ≠ s.get r) : i.target = r := by
    by_contra hd
    exact hv ((State.get_put_ne _ (Ne.symm hd) v).trans hadv)
  cases h with
  | arithmetic hop => exact ⟨hput hne, by tauto⟩
  | load hop => exact ⟨hput hne, by tauto⟩
  | loadFault | store | storeFault | halt => exact absurd hadv hne

/-- STATUS becomes halted by a HALT alone (R28, R160). -/
theorem Effect.halt_of_halted {i : Instr} {s t : State} (h : Effect i s t) (hs : s.status = .ready)
    (ht : t.status = .halted) : i.op = .halt ∧ t = s.advancePc.halt := by
  cases h with
  | halt hop => exact ⟨hop, rfl⟩
  | arithmetic | load | loadFault | store | storeFault => simp [hs] at ht

/-- No instruction changes the size of the memory (R42). -/
theorem Effect.lastAddr {i : Instr} {s t : State} (h : Effect i s t) : t.lastAddr = s.lastAddr := by
  cases h <;> simp

theorem Effect.memLegal {i : Instr} {s t : State} (h : Effect i s t) (hs : s.MemLegal) : t.MemLegal := by
  have hadv : s.advancePc.MemLegal := hs.congr (by simp) (by simp)
  cases h with
  | store hop hv => simpa using hadv.setMem_put (by simpa [State.ValidAddr] using hv) (s.advancePc.get i.target)
  | arithmetic | load | loadFault | storeFault | halt => exact hs.congr (by simp) (by simp)

/-- After an instruction that executes at the PC, STATUS tells the truth of it (R134 e, R160, R172). -/
theorem Effect.statusTrue {i : Instr} {s t : State} (h : Effect i s t) (hs : s.status = .ready)
    (hv : s.ValidAddr s.pc) (hx : s.ExecutesAt s.pc i.op) : t.StatusTrue := by
  have hpc : s.advancePc.pc = s.pc + 1 := State.advancePc_pc hv
  have hx' : s.advancePc.ExecutesAt s.pc i.op := (State.advancePc_executesAt ..).mpr hx
  cases h with
  | arithmetic | load | store => exact State.statusTrue_of_ready (by simpa using hs)
  | loadFault hop hea =>
    exact State.raise_load_statusTrue.mpr ⟨hpc, by simpa [State.ValidAddr] using hea, hop ▸ hx'⟩
  | storeFault hop hea =>
    exact State.raise_store_statusTrue.mpr ⟨hpc, by simpa [State.ValidAddr] using hea, hop ▸ hx'⟩
  | halt hop =>
    rw [State.halt_statusTrue, hpc, add_sub_cancel_right]
    exact hop ▸ hx'

/-! ### What a step does to each piece of the state -/

/-- A step that answers a next state keeps the size of the memory. -/
theorem step_lastAddr {s t : State} (h : step s = .next t) : t.lastAddr = s.lastAddr := by
  obtain ⟨-, ⟨r, -, rfl⟩ | ⟨e, -, -, rfl⟩ | ⟨e, -, -, -, heff⟩⟩ := step_cases h
  · simp
  · simp
  · simpa using heff.lastAddr

theorem step_memLegal {s t : State} (hs : s.MemLegal) (h : step s = .next t) : t.MemLegal := by
  obtain ⟨-, ⟨r, -, rfl⟩ | ⟨e, -, -, rfl⟩ | ⟨e, -, -, -, heff⟩⟩ := step_cases h
  · exact hs
  · exact hs.congr (by simp) (by simp)
  · exact heff.memLegal hs

/-- A fault of the fetch or the decoding leaves a record that names its true cause (R171, R172). -/
theorem State.raise_statusTrue_of_fetchDecode {s : State} {r : FaultRecord} (h : s.fetchDecode = .error r) :
    (s.raise r).StatusTrue := by
  rcases State.fetchDecode_error.mp h with ⟨hv, rfl⟩ | ⟨w, e, hr, hd, rfl⟩
  · exact State.raise_fetch_statusTrue.mpr ⟨rfl, rfl, hv⟩
  · exact State.raise_decode_statusTrue.mpr ⟨rfl, hr, e, hd⟩

theorem step_statusTrue {s t : State} (h : step s = .next t) : t.StatusTrue := by
  obtain ⟨hs, ⟨r, hf, rfl⟩ | ⟨e, -, -, rfl⟩ | ⟨e, hf, ho, -, heff⟩⟩ := step_cases h
  · exact State.raise_statusTrue_of_fetchDecode hf
  · exact State.statusTrue_of_ready (by simpa using hs)
  · exact heff.statusTrue hs (State.validAddr_of_fetchDecode hf) (State.executesAt_of_fetchDecode hf ho)

/-! ### The statements about every step -/

/-- Settles O27, from what an executed instruction does to COND and the four values of the ALU's flag. -/
theorem condIsWrittenOnlyByExecutedArithmetic : Obligations.CondIsWrittenOnlyByExecutedArithmetic := by
  intro s t h
  obtain ⟨-, ⟨r, -, rfl⟩ | ⟨e, -, -, rfl⟩ | ⟨e, hf, ho, -, heff⟩⟩ := step_cases h
  · exact .inl (by simp)
  · exact .inl (by simp)
  · refine heff.cond.imp id fun ⟨hop, hc⟩ => ⟨hc ▸ alu_flag_cases .., ?_⟩
    have hx := State.executesAt_of_fetchDecode hf ho
    rcases hop with hop | hop | hop | hop <;> rw [hop] at hx <;> simp only [hx, true_or, or_true]

/-- Settles O28: a fault keeps every register, a skipped instruction every one but the PC, and an executed one every one
but the PC and its target. -/
theorem registerIsWrittenOnlyAsATarget : Obligations.RegisterIsWrittenOnlyAsATarget := by
  intro s t r h hpc hne
  obtain ⟨-, ⟨x, -, rfl⟩ | ⟨e, -, -, rfl⟩ | ⟨e, hf, ho, -, heff⟩⟩ := step_cases h
  · exact absurd (s.raise_get x r) hne
  · exact absurd (by simp [State.advancePc_get, hpc]) hne
  · obtain ⟨-, hr, hd⟩ := State.fetchDecode_ok.mp hf
    obtain ⟨htarget, hop⟩ := heff.target_of_get_ne hpc hne
    exact ⟨e.word, e.ins, hr, hd, CondFlag.overlaps_eq_true.mp ho, htarget, hop⟩

/-- Settles O30: of all that a step can do, only the effect of a HALT ends in halted, and its PC advance does not wrap. -/
theorem onlyAnExecutedHaltHalts : Obligations.OnlyAnExecutedHaltHalts := by
  intro s t h ht
  obtain ⟨hs, ⟨r, -, rfl⟩ | ⟨e, -, -, rfl⟩ | ⟨e, hf, ho, -, heff⟩⟩ := step_cases h
  · simp at ht
  · simp [hs] at ht
  · obtain ⟨hop, rfl⟩ := heff.halt_of_halted hs ht
    exact ⟨hop ▸ State.executesAt_of_fetchDecode hf ho, State.advancePc_pc (State.validAddr_of_fetchDecode hf)⟩

/-- COND keeps one of its five values: the flags that arithmetic writes are four of them (R27). -/
theorem step_condLegal {s t : State} (hs : s.CondLegal) (h : step s = .next t) : t.CondLegal := by
  rcases condIsWrittenOnlyByExecutedArithmetic s t h with hc | ⟨hc, -⟩
  · simpa only [State.CondLegal, hc] using hs
  · exact .inr hc

/-- Settles O33, one part of the invariant at a time. -/
theorem stepKeepsTheInvariant : Obligations.StepKeepsTheInvariant := fun _ _ hs h =>
  ⟨⟨step_memLegal hs.memLegal h, step_condLegal hs.condLegal h, step_statusTrue h⟩, step_lastAddr h⟩

/-! ### Power-on and the start of a run -/

/-- Settles O34: STATUS is ready and COND is ALWAYS at power-on, and the empty memory of reset is legal. -/
theorem powerOnMeetsTheInvariant : Obligations.PowerOnMeetsTheInvariant := by
  have hpower (regs : Vector Word 15) (last : Fin 2147483647) (mem : Memory) (hwf : mem.wf)
      (hin : ∀ c ∈ mem, c.1 ≤ last.val) : (State.powerOn regs last mem).Inv :=
    ⟨⟨hwf, hin⟩, .inl rfl, State.statusTrue_of_ready rfl⟩
  exact ⟨hpower, hpower _ _ _ (by simp [Memory.wf]) (by simp)⟩

/-- At power-on x[1] to x[15] hold what they are given (R34). -/
theorem State.powerOn_get_succ (regs : Vector Word 15) (last : Fin 2147483647) (mem : Memory) (i : Fin 15) :
    (State.powerOn regs last mem).get i.succ = regs[i] := by
  simp [State.get, State.powerOn, Fin.succ_ne_zero]

/-- The start of a run, from a start address that fits in 32 bits and from no other (R192, U19). -/
theorem State.startRun_eq_some {s t : State} {start : Int} :
    s.startRun start = some t ↔
      Fits32 start ∧ t = ((s.setStatus .ready).setCond CondFlag.always).put pcReg (BitVec.ofInt 32 start) := by
  simp only [State.startRun, Option.ite_none_right_eq_some, Option.some.injEq, eq_comm (a := t)]

/-- Settles O35: power-on by its definition, the start of a run by what one register write leaves. -/
theorem powerOnAndRunStartLeaveTheSpecsValues : Obligations.PowerOnAndRunStartLeaveTheSpecsValues := by
  refine ⟨fun regs last mem => ⟨State.get_zero _, rfl, rfl, rfl, State.powerOn_get_succ regs last mem⟩,
    fun s t start h => ?_⟩
  obtain ⟨hfits, rfl⟩ := State.startRun_eq_some.mp h
  refine ⟨State.get_zero _, fun r hr => by simp [State.get_put_ne _ hr], ?_, by simp [CondFlag.always],
    by simp [State.halted], by simp, by simp⟩
  rw [State.pc, State.get_put_self _ (by decide), toInt_ofInt_of_fits hfits]

end Sys2Proof.Machine
end

section
/-! PROOF. The memory's own statements (spec/20_memory.md): what one STORE does to every read, and from it that a step
writes memory by an executed STORE alone and that the next fetch sees the word stored. -/

namespace Sys2Proof.Machine

/-! ### What a STORE to a valid address leaves -/

@[simp] theorem State.setMem_pc (s : State) (m : Memory) : (s.setMem m).pc = s.pc := rfl

/-- Every read after the PC advance and one word written to a valid address (R47, R132). -/
theorem State.advancePc_setMem_put_memRead {s : State} {ea : Int} (h : s.ValidAddr ea) (w : Word) (x : Int) :
    (s.advancePc.setMem (s.mem.put ea.toNat w)).memRead x = if x = ea then some w else s.memRead x := by
  have hv : s.advancePc.ValidAddr ea := by simpa [State.ValidAddr] using h
  simpa using s.advancePc.memRead_setMem_put hv w x

/-- A STORE to a valid address changes the read at that address alone (R47, R152). -/
theorem State.storeWord_memRead {s : State} {a b d : Reg} {k : Int} (h : s.ValidAddr (s.left a + s.right b k))
    (x : Int) :
    (s.storeWord a b d k).memRead x =
      if x = s.left a + s.right b k then some (s.advancePc.get d) else s.memRead x := by
  rw [State.storeWord_of_valid h, State.advancePc_setMem_put_memRead h]

/-- A STORE to a valid address ends with the PC advanced (R132, R152). -/
theorem State.storeWord_pc {s : State} {a b d : Reg} {k : Int} (h : s.ValidAddr (s.left a + s.right b k))
    (hpc : s.ValidAddr s.pc) : (s.storeWord a b d k).pc = s.pc + 1 := by
  rw [State.storeWord_of_valid h, State.setMem_pc, State.advancePc_pc hpc]

/-- A STORE to a valid address leaves STATUS as it was (R152). -/
theorem State.storeWord_status {s : State} {a b d : Reg} {k : Int} (h : s.ValidAddr (s.left a + s.right b k)) :
    (s.storeWord a b d k).status = s.status := by
  simp [State.storeWord_of_valid h]

/-- After a STORE to the address behind its own, the fetch reads the word stored (R53). -/
theorem State.storeWord_fetchDecode {s : State} {a b d : Reg} {k : Int} {v : Word} {i : Instr}
    (hpc : s.ValidAddr s.pc) (hsum : s.left a + s.right b k = s.pc + 1) (hv : s.ValidAddr (s.pc + 1))
    (hstored : s.advancePc.get d = v) (hi : decode v = .ok i) :
    (s.storeWord a b d k).fetchDecode = .ok ⟨s.pc + 1, v, i⟩ := by
  have hvalid : s.ValidAddr (s.left a + s.right b k) := hsum ▸ hv
  have hnext : (s.storeWord a b d k).pc = s.pc + 1 := State.storeWord_pc hvalid hpc
  refine State.fetchDecode_ok.mpr ⟨hnext.symm, ?_, hi⟩
  rw [hnext, State.storeWord_memRead hvalid, if_pos hsum.symm, hstored]

/-! ### What an executed instruction does to memory -/

/-- A read that differs after an executed instruction is the one at a STORE's own exact sum (R47). -/
theorem Effect.store_of_memRead_ne {i : Instr} {s t : State} (h : Effect i s t) {x : Int}
    (hne : t.memRead x ≠ s.memRead x) : i.op = .store ∧ x = s.left i.src1 + s.right i.src2 i.offset := by
  cases h with
  | store hop hv =>
    refine ⟨hop, ?_⟩
    by_contra hx
    exact hne (by rw [State.advancePc_setMem_put_memRead hv, if_neg hx])
  | arithmetic | load | loadFault | storeFault | halt => exact absurd (by simp) hne

/-- A step in ready whose word decodes to an instruction that passes the predication test ends in its effect (R125). -/
theorem step_of_executed {s : State} {e : Event} (hs : s.status = .ready) (hf : s.fetchDecode = .ok e)
    (ho : CondFlag.overlaps e.ins.pred s.cond = true) : step s = .next (effect e.ins (s.observe e)) :=
  (step_of_fetchDecode hs hf).trans (exec_of_executed ho)

/-! ### The statements -/

/-- Settles O29: a fault of the fetch or the decoding and a skipped instruction keep every read, and an executed
instruction every one but a STORE's own. -/
theorem memoryIsWrittenOnlyByAnExecutedStore : Obligations.MemoryIsWrittenOnlyByAnExecutedStore := by
  intro s t x h hne
  obtain ⟨-, ⟨r, -, rfl⟩ | ⟨e, -, -, rfl⟩ | ⟨e, hf, ho, -, heff⟩⟩ := step_cases h
  · exact absurd (s.raise_memRead r x) hne
  · exact absurd (by simp) hne
  · obtain ⟨-, hr, hd⟩ := State.fetchDecode_ok.mp hf
    obtain ⟨hop, hx⟩ := heff.store_of_memRead_ne hne
    exact ⟨e.word, e.ins, hr, hd, hop, CondFlag.overlaps_eq_true.mp ho, hx⟩

/-- Settles O18: the STORE leaves the machine ready, with the PC at the address it wrote, so the next fetch reads the
stored word. -/
theorem storeIsSeenByTheVeryNextFetch : Obligations.StoreIsSeenByTheVeryNextFetch := by
  intro s w v p a b d k i hs hr hd hp hsum hv hval hi
  have hpc : s.ValidAddr s.pc := State.validAddr_of_memRead hr
  have hf : s.fetchDecode = .ok ⟨s.pc, w, .store p a b d k⟩ := State.fetchDecode_ok.mpr ⟨rfl, hr, hd⟩
  have hstored : (s.observe ⟨s.pc, w, .store p a b d k⟩).advancePc.get d = v := by
    rw [State.advancePc_get, hval]; rfl
  have hvalid : s.ValidAddr ((s.get a).toInt + (k + (s.get b).toInt)) := hsum ▸ hv
  refine ⟨_, step_of_executed hs hf (CondFlag.overlaps_eq_true.mpr hp),
    State.storeWord_pc (s := s.observe _) hvalid hpc, ?_⟩
  exact step_of_fetchDecode ((State.storeWord_status (s := s.observe _) hvalid).trans hs)
    (State.storeWord_fetchDecode hpc hsum hv hstored hi)

end Sys2Proof.Machine
end

section
/-! PROOF. The encoding's own statements (spec/30_encoding.md): the fields of a word as slices of its bits, when the
decoder and the encoder answer, that each undoes the other, and what a step does with an illegal word and with one that is
predicated NEVER. -/

namespace Sys2Proof

/-! ### The fields of a word -/

/-- A field of a word is the slice of its bits at the field's place (R12, R61). -/
theorem bitField_eq_toNat_extractLsb' (w : Word) (pos len : Nat) :
    bitField w pos len = (w.extractLsb' pos len).toNat := by
  rw [bitField, BitVec.extractLsb'_toNat, Nat.shiftRight_eq_div_pow]

/-- The sign extension of a slice is its two's-complement value (R13, R65). -/
theorem signExtend_toNat {len : Nat} (hlen : 0 < len) (x : BitVec len) : signExtend len x.toNat = x.toInt := by
  have hpow : 2 ^ len = 2 * 2 ^ (len - 1) := by rw [← pow_succ', Nat.sub_add_cancel hlen]
  have hsign : 2 * x.toNat < 2 ^ len ↔ x.toNat < 2 ^ (len - 1) := by omega
  simp [signExtend, BitVec.toInt_eq_toNat_cond, hsign]

/-- A word with a known opcode is the sum of R69 over its own fields. -/
theorem packFields_extractLsb' {w : Word} (h : (w.extractLsb' 27 5).toNat ≤ 6) :
    packFields (w.extractLsb' 27 5).toNat (w.extractLsb' 23 4).toNat (w.extractLsb' 19 4).toNat
      (w.extractLsb' 15 4).toNat (w.extractLsb' 11 4).toNat (w.extractLsb' 0 11).toInt = w := by
  have hoffset : ((w.extractLsb' 0 11).toInt % 2048).toNat = (w.extractLsb' 0 11).toNat :=
    (BitVec.toNat_ofInt (n := 11) _).symm.trans (congrArg BitVec.toNat BitVec.ofInt_toInt)
  refine BitVec.eq_of_toNat_eq ?_
  rw [toNat_packFields h (BitVec.isLt _) (BitVec.isLt _) (BitVec.isLt _) (BitVec.isLt _), hoffset]
  have hw := w.isLt
  simp only [← bitField_eq_toNat_extractLsb', bitField]
  omega

/-! ### When the decoder answers an instruction, and which -/

/-- The decoder takes exactly the words with an opcode field of at most 6 (R66, R67). -/
theorem exists_decode_eq_ok {w : Word} : (∃ i, decode w = .ok i) ↔ (w.extractLsb' 27 5).toNat ≤ 6 := by
  rw [← bitField_eq_toNat_extractLsb', ← opcodeOfNumber_isSome, Option.isSome_iff_exists]
  constructor
  · rintro ⟨i, hi⟩
    obtain ⟨op, hop, -⟩ := decode_eq_ok.mp hi
    exact ⟨op, opcodeOfNumber_eq_some.mpr hop⟩
  · rintro ⟨op, hop⟩
    exact ⟨_, decode_eq_ok.mpr ⟨op, opcodeOfNumber_eq_some.mp hop, rfl⟩⟩

/-- The decoder reports an error exactly for the other words (R66, R67). -/
theorem exists_decode_eq_error {w : Word} : (∃ e, decode w = .error e) ↔ ¬ (w.extractLsb' 27 5).toNat ≤ 6 := by
  rw [← exists_decode_eq_ok]
  cases decode w <;> simp

/-- Every field of a decoded instruction is the slice of the word at the field's place (R61 to R66). -/
theorem fields_of_decode {w : Word} {i : Instr} (h : decode w = .ok i) :
    opcodeNumber i.op = (w.extractLsb' 27 5).toNat ∧ i.pred = w.extractLsb' 23 4
      ∧ i.src1.val = (w.extractLsb' 19 4).toNat ∧ i.src2.val = (w.extractLsb' 15 4).toNat
      ∧ i.target.val = (w.extractLsb' 11 4).toNat ∧ i.offset = (w.extractLsb' 0 11).toInt := by
  obtain ⟨op, hop, rfl⟩ := decode_eq_ok.mp h
  have hreg (x : BitVec 4) : (Fin.ofNat 16 x.toNat).val = x.toNat := Nat.mod_eq_of_lt x.isLt
  simp only [encoding, bitField_eq_toNat_extractLsb', OpCode.instr_op, OpCode.instr_pred, OpCode.instr_src1,
    OpCode.instr_src2, OpCode.instr_target, OpCode.instr_offset, hreg, true_and] at hop ⊢
  exact ⟨hop.symm, BitVec.eq_of_toNat_eq (Nat.mod_eq_of_lt (BitVec.isLt _)), signExtend_toNat (by decide) _⟩

/-- What the decoder answers is well formed (R65, R66). -/
theorem wellFormed_of_decode {w : Word} {i : Instr} (h : decode w = .ok i) : i.WellFormed := by
  obtain ⟨op, -, rfl⟩ := decode_eq_ok.mp h
  rw [Instr.WellFormed, OpCode.instr_offset]
  exact signExtend_inRange (Nat.mod_lt _ (by decide))

/-! ### When the encoder answers, and that encode and decode undo each other -/

/-- The encoder takes exactly the well-formed instructions, and answers the sum of R69 over their fields. -/
theorem encode_eq_some {i : Instr} {w : Word} :
    encode i = some w ↔
      i.WellFormed ∧ w = packFields (opcodeNumber i.op) i.pred.toNat i.src1 i.src2 i.target i.offset := by
  rw [encode, encodeFields_eq_some]
  exact and_congr_left fun _ => ⟨fun ⟨_, _, _, _, _, hk⟩ => hk, fun hk =>
    ⟨opcodeNumber_le _, i.pred.isLt, i.src1.isLt, i.src2.isLt, i.target.isLt, hk⟩⟩

/-- An instruction is its opcode with its fields (R15). -/
theorem Instr.op_instr (i : Instr) : i.op.instr i.pred i.src1 i.src2 i.target i.offset = i := by
  cases i <;> rfl

/-- Decoding undoes encoding (R70). -/
theorem decode_of_encode {i : Instr} {w : Word} (h : encode i = some w) : decode w = .ok i := by
  obtain ⟨hwf, rfl⟩ := encode_eq_some.mp h
  obtain ⟨hop, hpred, hsrc1, hsrc2, htarget, hoffset⟩ :=
    bitField_packFields (offset := i.offset) (opcodeNumber_le i.op) i.pred.isLt i.src1.isLt i.src2.isLt i.target.isLt
  refine decode_eq_ok.mpr ⟨i.op, hop, ?_⟩
  rw [hpred, hsrc1, hsrc2, htarget, hoffset, show encoding.offsetBits = 11 from rfl, signExtend_of_inRange hwf]
  simp [Instr.op_instr]

/-- Encoding undoes decoding (R70). -/
theorem encode_of_decode {w : Word} {i : Instr} (h : decode w = .ok i) : encode i = some w := by
  obtain ⟨hop, hpred, hsrc1, hsrc2, htarget, hoffset⟩ := fields_of_decode h
  refine encode_eq_some.mpr ⟨wellFormed_of_decode h, ?_⟩
  rw [hop, hpred, hsrc1, hsrc2, htarget, hoffset]
  exact (packFields_extractLsb' (hop ▸ opcodeNumber_le _)).symm

/-! ### The statements about the decoder and the encoder -/

/-- Settles O1: encode and decode undo each other, so words that decode alike are what that instruction encodes to. -/
theorem encodeAndDecodeAreMutualInverses : Obligations.EncodeAndDecodeAreMutualInverses := by
  refine ⟨fun i hi => ?_, fun w hw => ?_, fun v w i hv hw => ?_⟩
  · have henc := encode_eq_some.mpr ⟨hi, rfl⟩
    have hdec := decode_of_encode henc
    refine ⟨_, henc, hdec, fun j hj => ?_⟩
    rw [Except.ok.inj (hj.symm.trans hdec)]
  · obtain ⟨i, hi⟩ := exists_decode_eq_ok.mpr hw
    exact ⟨i, hi, encode_of_decode hi⟩
  · exact Option.some.inj ((encode_of_decode hv).symm.trans (encode_of_decode hw))

/-- Settles O2: a word the decoder takes shows each field at its place, its opcode field being the opcode's number. -/
theorem decodeReadsEveryFieldAtItsPlace : Obligations.DecodeReadsEveryFieldAtItsPlace := by
  intro w
  split
  next h =>
    obtain ⟨i, hi⟩ := exists_decode_eq_ok.mpr h
    obtain ⟨hop, hfields⟩ := fields_of_decode hi
    refine ⟨i, hi, wellFormed_of_decode hi, ?_, hfields⟩
    cases i <;> exact BitVec.eq_of_toNat_eq hop.symm
  next h => exact exists_decode_eq_error.mpr h

/-- The sum of R69 over fields in range, as an integer. -/
theorem toInt_toNat_packFields {op pred src1 src2 target : Nat} {offset : Int} (h : op ≤ 6) (hp : pred < 16)
    (h1 : src1 < 16) (h2 : src2 < 16) (ht : target < 16) :
    ((packFields op pred src1 src2 target offset).toNat : Int) =
      op * 2 ^ 27 + pred * 2 ^ 23 + src1 * 2 ^ 19 + src2 * 2 ^ 15 + target * 2 ^ 11 + offset % 2048 := by
  rw [toNat_packFields h hp h1 h2 ht]
  omega

/-- The ranges of R69 as the statement writes them and as the encoder's lemmas do. -/
theorem fieldsInRange_iff {op pred src1 src2 target : Nat} {offset : Int} :
    (op ≤ 6 ∧ pred ≤ 15 ∧ src1 ≤ 15 ∧ src2 ≤ 15 ∧ target ≤ 15 ∧ -1024 ≤ offset ∧ offset ≤ 1023) ↔
      op ≤ 6 ∧ pred < 16 ∧ src1 < 16 ∧ src2 < 16 ∧ target < 16 ∧ OffsetInRange offset := by
  rw [offsetInRange_iff]
  omega

/-- Settles O3, from when the encoder answers and the value of its sum. -/
theorem encoderPacksInRangeFieldsAndRefusesTheRest : Obligations.EncoderPacksInRangeFieldsAndRefusesTheRest := by
  refine ⟨fun op pred src1 src2 target offset => ?_, fun i hi => ?_, fun i hi => ?_⟩
  · simp only [fieldsInRange_iff]
    split
    next h =>
      have ⟨hop, hpred, hsrc1, hsrc2, htarget, _⟩ := h
      exact ⟨_, encodeFields_eq_some.mpr ⟨h, rfl⟩, toInt_toNat_packFields hop hpred hsrc1 hsrc2 htarget⟩
    next h => exact Option.eq_none_iff_forall_ne_some.mpr fun w hw => h (encodeFields_eq_some.mp hw).1
  · exact ⟨_, encode_eq_some.mpr ⟨hi, rfl⟩,
      toInt_toNat_packFields (opcodeNumber_le _) i.pred.isLt i.src1.isLt i.src2.isLt i.target.isLt⟩
  · exact Option.eq_none_iff_forall_ne_some.mpr fun w hw => hi (encode_eq_some.mp hw).1

/-- Settles O4: seven closed words, each decoded by computation. -/
theorem wordsOfTheSpecDecodeAsItSays : Obligations.WordsOfTheSpecDecodeAsItSays := by
  refine ⟨?_, ?_, ?_, ?_, ?_, ?_, ?_⟩ <;> decide

end Sys2Proof

namespace Sys2Proof.Machine

/-! ### The step on an illegal word and on one predicated NEVER -/

/-- A step in ready on a word that does not decode raises DecodeFault and does nothing else (R128, R171). -/
theorem step_of_decode_error {s : State} {w : Word} {e : DecodeError} (hs : s.status = .ready)
    (hr : s.memRead s.pc = some w) (hd : decode w = .error e) : step s = .next (s.raise (.decode s.pc w)) :=
  step_of_fetchDecode_error hs (State.fetchDecode_error.mpr (.inr ⟨w, e, hr, hd, rfl⟩))

/-- A step in ready whose word decodes to an instruction that fails the predication test only sends the event and advances
the PC (R129, R130). -/
theorem step_of_skipped {s : State} {e : Event} (hs : s.status = .ready) (hf : s.fetchDecode = .ok e)
    (ho : CondFlag.overlaps e.ins.pred s.cond = false) : step s = .next (s.observe e).advancePc :=
  (step_of_fetchDecode hs hf).trans (exec_of_skipped ho)

/-- Settles O22: an opcode field of 7 or more does not decode, whatever the other fields hold. -/
theorem illegalWordFaultsWhateverItsOtherBits : Obligations.IllegalWordFaultsWhateverItsOtherBits := by
  intro s w hs hr hop
  obtain ⟨e, hd⟩ := exists_decode_eq_error.mpr (Nat.not_le.mpr hop)
  exact ⟨_, step_of_decode_error hs hr hd, rfl, s.raise_get _, rfl, s.raise_memRead _, rfl, rfl⟩

/-- Settles O23: the decoded predicate is NEVER, which fails the predication test against every COND (R101). -/
theorem neverPredicatedWordOnlyAdvancesThePc : Obligations.NeverPredicatedWordOnlyAdvancesThePc := by
  intro s w hs hr hop hnever
  obtain ⟨i, hd⟩ := exists_decode_eq_ok.mpr hop
  obtain ⟨-, hpred, -⟩ := fields_of_decode hd
  have hskip : CondFlag.overlaps i.pred s.cond = false := by
    rw [hpred, hnever]
    exact CondFlag.never_overlaps s.cond
  have hf : s.fetchDecode = .ok ⟨s.pc, w, i⟩ := State.fetchDecode_ok.mpr ⟨rfl, hr, hd⟩
  have hvalid : s.ValidAddr s.pc := State.validAddr_of_memRead hr
  exact ⟨_, i, step_of_skipped hs hf hskip, hd, State.advancePc_pc (s := s.observe _) hvalid,
    State.advancePc_get (s.observe _), by simp, by simpa using hs, fun x => by simp, by simp, by simp⟩

end Sys2Proof.Machine
end

section
/-! PROOF. The predication statements (spec/40_condflag_predication.md): the predication test against a COND of one flag
reads that flag's bit of the predicate, and STATUS after a HALT shows how the test went. -/

namespace Sys2Proof

/-! ### The predication test against one flag -/

/-- The predication test against a single flag reads one bit of the predicate (R63, R100). -/
theorem CondFlag.overlaps_twoPow {a : CondFlag} {n : Nat} :
    overlaps a (BitVec.twoPow 4 n) = true ↔ a.getLsbD n = true := by
  rw [overlaps_eq_true, BitVec.and_twoPow]
  by_cases hbit : a.getLsbD n = true
  · have hn : n < 4 := BitVec.lt_of_getLsbD hbit
    have hflag : BitVec.twoPow 4 n ≠ 0b0000#4 := fun h => by simpa [hn] using congrArg (BitVec.getLsbD · n) h
    simpa [hbit] using hflag
  · simp [hbit]

theorem CondFlag.overlaps_Z {a : CondFlag} : overlaps a Z = true ↔ a.getLsbD 0 = true := overlaps_twoPow (n := 0)
theorem CondFlag.overlaps_M {a : CondFlag} : overlaps a M = true ↔ a.getLsbD 1 = true := overlaps_twoPow (n := 1)
theorem CondFlag.overlaps_P {a : CondFlag} : overlaps a P = true ↔ a.getLsbD 2 = true := overlaps_twoPow (n := 2)
theorem CondFlag.overlaps_V {a : CondFlag} : overlaps a V = true ↔ a.getLsbD 3 = true := overlaps_twoPow (n := 3)

end Sys2Proof

namespace Sys2Proof.Machine

/-- No value that COND can hold is NEVER (R101). -/
theorem State.CondLegal.cond_ne_never {s : State} (h : s.CondLegal) : s.cond ≠ CondFlag.never := by
  obtain hc | hc | hc | hc | hc := h <;> rw [hc] <;> decide

/-- ALWAYS passes the predication test for every value that COND can hold (R101). -/
theorem State.CondLegal.always_overlaps {s : State} (h : s.CondLegal) :
    CondFlag.overlaps CondFlag.always s.cond = true := by
  rw [CondFlag.overlaps_comm]
  exact CondFlag.overlaps_always.mpr h.cond_ne_never

/-- A HALT in ready halts exactly when its predicate passes the predication test (R100, R160). -/
theorem exec_halt_of_ready {s : State} (hs : s.status = .ready) (p : CondFlag) (a b d : Reg) (k : Int) :
    ∃ t, exec (.halt p a b d k) s = .next t ∧ (t.status = .halted ↔ CondFlag.overlaps p s.cond = true) := by
  cases ho : CondFlag.overlaps p s.cond with
  | true => exact ⟨_, exec_of_executed ho, by simp [effect]⟩
  | false => exact ⟨_, exec_of_skipped ho, by simp [hs]⟩

/-- Settles O8: NEVER fails the predication test against every COND, and ALWAYS passes it against every COND of a run. -/
theorem neverIsSkippedAndAlwaysExecutes : Obligations.NeverIsSkippedAndAlwaysExecutes := by
  constructor
  · intro i s hnever
    have hskip : CondFlag.overlaps i.pred s.cond = false := hnever ▸ CondFlag.never_overlaps s.cond
    exact ⟨_, exec_of_skipped hskip, s.advancePc_get, s.advancePc_cond, s.advancePc_status, s.advancePc_memRead⟩
  · intro s a b d k hlegal
    exact ⟨_, exec_of_executed (i := .halt _ a b d k) hlegal.always_overlaps, rfl⟩

/-- Settles O9: each row of R102's table is the predication test against that value of COND. -/
theorem haltExecutesExactlyAsItsPredicateSays : Obligations.HaltExecutesExactlyAsItsPredicateSays := by
  intro s p a b d k hs
  obtain ⟨t, ht, hhalt⟩ := exec_halt_of_ready hs p a b d k
  refine ⟨t, ht, ?_, ?_, ?_, ?_, ?_⟩ <;> intro hc <;> rw [hhalt, hc]
  · exact CondFlag.overlaps_always
  · exact CondFlag.overlaps_Z
  · exact CondFlag.overlaps_M
  · exact CondFlag.overlaps_P
  · exact CondFlag.overlaps_V

end Sys2Proof.Machine
end

section
/-! PROOF. The ALU's statements (spec/41_alu.md): the exact value of R107 is the one that R13 characterises, and what the
ALU answers for it, or for its absence. -/

namespace Sys2Proof

/-! ### The floored quotient as R13 characterises it -/

/-- The integers up to the floored quotient, for a positive divisor (R13). -/
theorem le_floorDiv_of_pos {a b q : Int} (hb : 0 < b) : q ≤ floorDiv a b ↔ q * b ≤ a := by
  rw [floorDiv, Int.fdiv_eq_ediv_of_nonneg a hb.le, Int.le_ediv_iff_mul_le hb]

/-- And for a negative divisor (R13). -/
theorem le_floorDiv_of_neg {a b q : Int} (hb : b < 0) : q ≤ floorDiv a b ↔ a ≤ q * b := by
  have hneg : floorDiv a b = floorDiv (-a) (-b) := (Int.neg_fdiv_neg a b).symm
  rw [hneg, le_floorDiv_of_pos (Int.neg_pos_of_neg hb), Int.mul_neg, Int.neg_le_neg_iff]

end Sys2Proof

namespace Sys2Proof.Machine

/-- The exact value of a division is the floored quotient, and there is none for a division by zero (R13, R107). -/
theorem isExactValue_div {a b e : Int} : IsExactValue .div a b e ↔ b ≠ 0 ∧ e = floorDiv a b := by
  rw [IsExactValue]
  obtain hb | rfl | hb := lt_trichotomy b 0
  · simp only [← le_floorDiv_of_neg hb, forall_le_iff_le, ← le_antisymm_iff]
    simp [hb, hb.ne, hb.not_gt]
  · simp
  · simp only [← le_floorDiv_of_pos hb, forall_le_iff_le, ← le_antisymm_iff]
    simp [hb, hb.ne', hb.not_gt]

/-- The exact value in the terms of R13 is the one the ALU computes (R107). -/
theorem isExactValue_iff {op : OpCode} {a b e : Int} : IsExactValue op a b e ↔ exactValue op a b = some e := by
  cases op with
  | div => rw [isExactValue_div]; simp [exactValue, eq_comm]
  | add | sub | mul | load | store | halt => simp [IsExactValue, exactValue, eq_comm]

/-- Everything but a division by zero has an exact value (R107). -/
theorem exists_isExactValue {op : OpCode} {a b : Int} : (∃ e, IsExactValue op a b e) ↔ ¬ (op = .div ∧ b = 0) := by
  rw [← exactValue_eq_none (a := a), ← ne_eq, Option.ne_none_iff_exists']
  simp only [isExactValue_iff]

/-! ### The ALU's answer -/

/-- The ALU answers what R109 says of the exact value, or of its absence. -/
theorem alu_resultAndFlag (op : OpCode) (a b : Int) :
    ResultAndFlag (exactValue op a b) (alu op a b).1 (alu op a b).2 := by
  cases he : exactValue op a b with
  | none => rw [alu_of_none he]; exact ⟨rfl, rfl⟩
  | some e =>
    by_cases hf : Fits32 e
    · rw [alu_of_fits he hf, ResultAndFlag, if_pos hf]
      exact ⟨toInt_ofInt_of_fits hf, rfl⟩
    · rw [alu_of_overflow he hf, ResultAndFlag, if_neg hf]
      exact ⟨rfl, rfl⟩

/-- The flag is V exactly where the ALU has no exact value or one that does not fit (R110, R111). -/
theorem alu_flag_eq_V {op : OpCode} {a b : Int} :
    (alu op a b).2 = CondFlag.V ↔ exactValue op a b = none ∨ ∃ e, exactValue op a b = some e ∧ ¬ Fits32 e := by
  cases he : exactValue op a b with
  | none => simp [alu_of_none he]
  | some e =>
    by_cases hf : Fits32 e
    · simp [alu_of_fits he hf, flagOf_ne_V, hf.1, hf.2]
    · simpa [alu_of_overflow he hf] using hf

/-- With V the result is 0 (R110, R111). -/
theorem alu_result_of_flag_V {op : OpCode} {a b : Int} (h : (alu op a b).2 = CondFlag.V) : (alu op a b).1 = 0 := by
  obtain he | ⟨e, he, hf⟩ := alu_flag_eq_V.mp h
  · rw [alu_of_none he]
  · rw [alu_of_overflow he hf]

/-! ### The statements about the ALU -/

/-- Settles O5: the exact value of R13 is the one the ALU computes, and only a division by zero has none. -/
theorem aluGivesTheExactValueOrZeroWithV : Obligations.AluGivesTheExactValueOrZeroWithV := by
  refine ⟨fun a => ?_, fun op a b h => exists_isExactValue.mpr h, fun op a b e h => ?_⟩
  · exact alu_of_none (exactValue_eq_none.mpr ⟨rfl, rfl⟩)
  · exact isExactValue_iff.mp h ▸ alu_resultAndFlag op a b

/-- Settles O6: the two fault cases are those without an exact value that fits. -/
theorem aluFlagIsOneBitAndVMarksTheFaults : Obligations.AluFlagIsOneBitAndVMarksTheFaults := by
  refine fun op a b => ⟨alu_flag_cases op a b, ?_, alu_result_of_flag_V⟩
  simpa only [isExactValue_iff, exactValue_eq_none] using alu_flag_eq_V (op := op) (a := a) (b := b)

end Sys2Proof.Machine
end

section
/-! PROOF. The step's own statements (spec/42_step.md): when a step is taken, what it fetches and runs, what a skipped
instruction leaves, and which event a step sends. -/

namespace Sys2Proof.Machine

/-! ### When a step is taken -/

/-- In halted no step is taken (R136). -/
theorem step_of_halted {s : State} (hs : s.status = .halted) : step s = .fault .halted := by
  simp only [step, hs]

/-- In faulted no step is taken, and the record is handed over (R136, R174). -/
theorem step_of_faulted {s : State} {r : FaultRecord} (hs : s.status = .faulted r) :
    step s = .fault (.faulted r) := by
  simp only [step, hs]

/-- In ready a step is always taken: a fault of the fetch or the decoding is a next state too (R133, R136). -/
theorem exists_step_of_ready {s : State} (hs : s.status = .ready) : ∃ t, step s = .next t := by
  cases hf : s.fetchDecode with
  | error r => exact ⟨_, step_of_fetchDecode_error hs hf⟩
  | ok e => exact ⟨_, (step_of_fetchDecode hs hf).trans (exec_eq _ _)⟩

/-! ### The fetch -/

/-- The valid addresses by the number of words (R42). -/
theorem State.validAddr_iff_le_memWords {s : State} {a : Int} :
    s.ValidAddr a ↔ 0 ≤ a ∧ a ≤ (s.memWords : Int) - 1 := by
  simp [State.memWords]

/-- There is a word at exactly the valid addresses (R43). -/
theorem State.exists_memRead_eq_some {s : State} {a : Int} : (∃ w, s.memRead a = some w) ↔ s.ValidAddr a := by
  rw [← State.memRead_isSome, Option.isSome_iff_exists]

theorem State.memRead_eq_none {s : State} {a : Int} : s.memRead a = none ↔ ¬ s.ValidAddr a := by
  rw [← State.memRead_isSome, Option.not_isSome_iff_eq_none]

/-- Fetch and decode fail on a PC that is no valid address (R127). -/
theorem State.fetchDecode_of_invalid {s : State} (h : ¬ s.ValidAddr s.pc) :
    s.fetchDecode = .error (.memory .fetch s.pc s.pc) :=
  State.fetchDecode_error.mpr (.inl ⟨h, rfl⟩)

/-! ### The events sent -/

/-- No instruction sends an event of its own (R129). -/
theorem Effect.trace {i : Instr} {s t : State} (h : Effect i s t) : t.trace = s.trace := by
  cases h <;> simp

/-- A step whose word decodes sends the event of it, whether the instruction is skipped or executed; a step that faults
before that sends none (R129). -/
theorem step_trace {s t : State} (h : step s = .next t) :
    (∀ e, s.fetchDecode = .ok e → t.trace = e :: s.trace)
    ∧ (∀ r, s.fetchDecode = .error r → t.trace = s.trace) := by
  obtain ⟨-, ⟨r, hf, rfl⟩ | ⟨e, hf, -, rfl⟩ | ⟨e, hf, -, -, heff⟩⟩ := step_cases h
  · simp [hf]
  · simp [hf]
  · simp [hf, heff.trace]

/-! ### The statements -/

/-- Settles O20: fetch and decode answer the event of the word at the PC, and the step runs its instruction. -/
theorem stepRunsTheDecodedInstruction : Obligations.StepRunsTheDecodedInstruction := fun s w i hs hr hd =>
  step_of_fetchDecode (e := ⟨s.pc, w, i⟩) hs (State.fetchDecode_ok.mpr ⟨rfl, hr, hd⟩)

/-- Settles O24: a next state comes from ready alone, and from ready there always is one. -/
theorem stepIsTakenExactlyInReady : Obligations.StepIsTakenExactlyInReady := fun _ =>
  ⟨⟨fun ⟨_, h⟩ => (step_cases h).1, exists_step_of_ready⟩, step_of_halted, fun _ => step_of_faulted⟩

/-- Settles O7: what is left of a skipped instruction is the PC advance. -/
theorem skippedInstructionOnlyAdvancesThePc : Obligations.SkippedInstructionOnlyAdvancesThePc := fun _ s h =>
  ⟨_, exec_of_skipped (CondFlag.overlaps_eq_false.mpr h), s.advancePc_get, s.advancePc_cond, s.advancePc_status,
    s.advancePc_memRead, s.advancePc_lastAddr, s.advancePc_trace⟩

/-- Settles O21: at a valid PC there is a word, which runs or raises DecodeFault; at any other the fetch faults. -/
theorem fetchReadsTheWordAtThePcOrFaults : Obligations.FetchReadsTheWordAtThePcOrFaults := by
  intro s hs
  simp only [← State.validAddr_iff_le_memWords]
  split
  next hvalid =>
    obtain ⟨w, hr⟩ := State.exists_memRead_eq_some.mpr hvalid
    exact ⟨w, hr, fun i hd => stepRunsTheDecodedInstruction s w i hs hr hd, fun e hd => step_of_decode_error hs hr hd⟩
  next hinvalid =>
    exact ⟨_, step_of_fetchDecode_error hs (State.fetchDecode_of_invalid hinvalid), s.raise_status _, s.raise_get _,
      s.raise_cond _, s.raise_memRead _, s.raise_lastAddr _, s.raise_trace _⟩

/-- Settles O31: the three cases are those of fetch and decode, on which the events a step sends depend alone. -/
theorem everyDecodedInstructionIsObservedOnce : Obligations.EveryDecodedInstructionIsObservedOnce := by
  intro s t h
  obtain ⟨hsent, hnone⟩ := step_trace h
  refine ⟨fun w i hr hd => ?_, fun hr => ?_, fun w e hr hd => ?_⟩
  · exact hsent ⟨s.pc, w, i⟩ (State.fetchDecode_ok.mpr ⟨rfl, hr, hd⟩)
  · exact hnone _ (State.fetchDecode_of_invalid (State.memRead_eq_none.mp hr))
  · exact hnone _ (State.fetchDecode_error.mpr (.inr ⟨w, e, hr, hd, rfl⟩))

end Sys2Proof.Machine
end

section
/-! PROOF. The arithmetic instructions' statements (spec/43_arithmetic.md): what an executed ADD, SUB, MUL or DIV does to
the whole state, said once for the four with the ALU's exact value, and the sum that each instruction encodes to. -/

namespace Sys2Proof.Machine

/-! ### What the four instructions share -/

/-- An executed ADD, SUB, MUL or DIV writes the ALU's result and flag and changes nothing else but the PC (R140). -/
theorem Effect.arithmeticEffect {i : Instr} {s t : State} (h : Effect i s t)
    (hop : i.op = .add ∨ i.op = .sub ∨ i.op = .mul ∨ i.op = .div) :
    ArithmeticEffect s t i.target (exactValue i.op (s.left i.src1) (s.right i.src2 i.offset)) := by
  cases h with
  | arithmetic =>
    refine ⟨⟨_, alu_resultAndFlag .., fun r => s.advancePc_put_get i.target r _⟩, ?_, fun x => ?_, ?_, ?_⟩ <;> simp
  | load h | loadFault h | store h | storeFault h | halt h => simp [h] at hop

/-- Such an instruction executes where COND meets its predicate (R100, R140). -/
theorem exec_arithmetic {op : OpCode} (hop : op = .add ∨ op = .sub ∨ op = .mul ∨ op = .div) (s : State) (p : CondFlag)
    (a b d : Reg) (k : Int) (hp : p &&& s.cond ≠ 0b0000#4) :
    ∃ t, exec (op.instr p a b d k) s = .next t
      ∧ ArithmeticEffect s t d (exactValue op (s.left a) (s.right b k)) := by
  have ho : CondFlag.overlaps (op.instr p a b d k).pred s.cond = true := by simpa [CondFlag.overlaps_eq_true] using hp
  have heff := (effect_cases (op.instr p a b d k) s).arithmeticEffect (by simpa using hop)
  exact ⟨_, exec_of_executed ho, by simpa using heff⟩

/-- An instruction with its offset in range encodes as its opcode's number in the opcode field, plus its packed fields
(R69). -/
theorem encodedAs_of_offsetInRange {op : OpCode} {base : Nat} (hbase : opcodeNumber op * 2 ^ 27 = base) (p : CondFlag)
    (a b d : Reg) (k : Int) (hk : OffsetInRange k) : EncodedAs (op.instr p a b d k) base := by
  have hwf : (op.instr p a b d k).WellFormed := by simpa [Instr.WellFormed] using hk
  refine ⟨_, encode_eq_some.mpr ⟨hwf, rfl⟩, ?_⟩
  rw [toInt_toNat_packFields (opcodeNumber_le _) (BitVec.isLt _) (Fin.isLt _) (Fin.isLt _) (Fin.isLt _),
    OpCode.instr_op, ← hbase]
  push_cast
  rfl

/-! ### The statements -/

/-- Settles O10: the ALU's exact value for ADD is the sum, and ADD is opcode 0. -/
theorem addWritesTheExactSum : Obligations.AddWritesTheExactSum :=
  ⟨exec_arithmetic (op := .add) (by decide), encodedAs_of_offsetInRange (op := .add) (by decide)⟩

/-- Settles O11: the ALU's exact value for SUB is the difference, and SUB is opcode 1. -/
theorem subWritesTheExactDifference : Obligations.SubWritesTheExactDifference :=
  ⟨exec_arithmetic (op := .sub) (by decide), encodedAs_of_offsetInRange (op := .sub) (by decide)⟩

/-- Settles O12: the ALU's exact value for MUL is the product, and MUL is opcode 2. -/
theorem mulWritesTheExactProduct : Obligations.MulWritesTheExactProduct :=
  ⟨exec_arithmetic (op := .mul) (by decide), encodedAs_of_offsetInRange (op := .mul) (by decide)⟩

/-- Settles O13: the ALU has no exact value for a divisor sum of 0, and else the one that R13 characterises; and DIV is
opcode 3. -/
theorem divWritesTheFlooredQuotient : Obligations.DivWritesTheFlooredQuotient := by
  refine ⟨fun s p a b d k hp => ?_, encodedAs_of_offsetInRange (op := .div) (by decide)⟩
  obtain ⟨t, ht, heff⟩ := exec_arithmetic (op := .div) (by decide) s p a b d k hp
  refine ⟨t, ht, ?_⟩
  split
  next hzero =>
    have hnone : exactValue .div (s.left a) (s.right b k) = none := exactValue_eq_none.mpr ⟨rfl, hzero⟩
    exact hnone ▸ heff
  next hne =>
    obtain ⟨q, hq⟩ : ∃ q, IsExactValue .div (s.left a) (s.right b k) q :=
      exists_isExactValue.mpr fun ⟨_, hzero⟩ => hne hzero
    exact ⟨q, hq, isExactValue_iff.mp hq ▸ heff⟩

end Sys2Proof.Machine
end

section
/-! PROOF. The data accesses' own statements (spec/44_load_store.md): what an executed LOAD or STORE leaves at a valid
address, what its MemoryFault leaves at any other, and the word that a LOAD reads back after a STORE. -/

namespace Sys2Proof.Machine

/-! ### What an executed LOAD or STORE runs -/

/-- An executed LOAD ends in its own effect (R100, R151). -/
theorem exec_load_of_executed {s : State} {p : CondFlag} (hp : p &&& s.cond ≠ 0b0000#4) (a b d : Reg) (k : Int) :
    exec (.load p a b d k) s = .next (s.loadWord a b d k) :=
  exec_of_executed (i := .load p a b d k) (CondFlag.overlaps_eq_true.mpr hp)

/-- An executed STORE ends in its own effect (R100, R152). -/
theorem exec_store_of_executed {s : State} {p : CondFlag} (hp : p &&& s.cond ≠ 0b0000#4) (a b d : Reg) (k : Int) :
    exec (.store p a b d k) s = .next (s.storeWord a b d k) :=
  exec_of_executed (i := .store p a b d k) (CondFlag.overlaps_eq_true.mpr hp)

/-- LOAD where the read at the exact sum answers a word (R151). -/
theorem State.loadWord_of_memRead {s : State} {a b : Reg} {k : Int} {w : Word}
    (hr : s.memRead (s.left a + s.right b k) = some w) (d : Reg) : s.loadWord a b d k = s.advancePc.put d w := by
  have hvalid := State.validAddr_of_memRead hr
  have hword : s.mem.get (s.left a + s.right b k).toNat = w := by
    simpa only [State.memRead_eq, if_pos hvalid, Option.some.injEq] using hr
  rw [State.loadWord_of_valid hvalid, hword]

/-- Raising MemoryFault after the PC advance leaves what R172 says of a data access. -/
theorem State.advancePc_raise_dataFaultEffect (s : State) (access : Access) (ea : Int) :
    DataFaultEffect s (s.advancePc.raise (.memory access s.pc ea)) access ea :=
  ⟨s.advancePc_get, s.advancePc_cond, rfl, s.advancePc_memRead, s.advancePc_lastAddr, s.advancePc_trace⟩

/-! ### The statements -/

/-- Settles O15: by the read at the exact sum the LOAD is a register write after the PC advance, or a raised MemoryFault;
and LOAD is opcode 4. -/
theorem loadWritesTheWordAtTheAddressOrFaults : Obligations.LoadWritesTheWordAtTheAddressOrFaults := by
  refine ⟨fun s p a b d k w hp hr => ⟨_, exec_load_of_executed hp a b d k, ?_⟩,
    fun s p a b d k ea hp hea hinvalid => ⟨_, exec_load_of_executed hp a b d k, ?_⟩,
    encodedAs_of_offsetInRange (op := .load) (by decide)⟩
  · rw [State.loadWord_of_memRead hr]
    refine ⟨fun r => s.advancePc_put_get d r w, ?_, ?_, fun x => ?_, ?_, ?_⟩ <;> simp
  · subst hea
    rw [State.loadWord_of_invalid (State.validAddr_iff_le_memWords.not.mpr hinvalid)]
    exact s.advancePc_raise_dataFaultEffect .load _

/-- Settles O16: by whether the exact sum is valid the STORE changes one read after the PC advance, or raises
MemoryFault; and STORE is opcode 5. -/
theorem storeWritesTheRegisterAtTheAddressOrFaults : Obligations.StoreWritesTheRegisterAtTheAddressOrFaults := by
  refine ⟨fun s p a b d k ea hp hea hlow hhigh => ?_,
    fun s p a b d k ea hp hea hinvalid => ⟨_, exec_store_of_executed hp a b d k, ?_⟩,
    encodedAs_of_offsetInRange (op := .store) (by decide)⟩ <;> subst hea
  · have hvalid : s.ValidAddr (s.left a + s.right b k) := State.validAddr_iff_le_memWords.mpr ⟨hlow, hhigh⟩
    refine ⟨_, exec_store_of_executed hp a b d k, fun x => ?_, ?_⟩
    · rw [State.storeWord_memRead hvalid, State.advancePc_get]
      rfl
    · rw [State.storeWord_of_valid hvalid]
      exact ⟨s.advancePc_get, s.advancePc_cond, s.advancePc_status, s.advancePc_lastAddr, s.advancePc_trace⟩
  · rw [State.storeWord_of_invalid (State.validAddr_iff_le_memWords.not.mpr hinvalid)]
    exact s.advancePc_raise_dataFaultEffect .store _

/-- Settles O17: the STORE leaves its register's value, read after the PC advance, at the address the LOAD computes, and
the LOAD writes what it reads there to its target. -/
theorem storeThenLoadRoundTrip : Obligations.StoreThenLoadRoundTrip := by
  intro s t u p q a b d a' b' d' k k' ea hp hea hvalid hstore hkept hq hea'
  subst hea
  cases (exec_store_of_executed hp a b d k).symm.trans hstore
  have hread : u.memRead (u.left a' + u.right b' k') = some (s.advancePc.get d) :=
    calc u.memRead (u.left a' + u.right b' k')
      _ = u.memRead (s.left a + s.right b k) := congrArg u.memRead hea'
      _ = (s.storeWord a b d k).memRead (s.left a + s.right b k) := hkept
      _ = some (s.advancePc.get d) := by rw [State.storeWord_memRead hvalid, if_pos rfl]
  refine ⟨_, exec_load_of_executed hq a' b' d' k', ?_⟩
  rw [State.loadWord_of_memRead hread, State.advancePc_put_get, if_pos rfl, State.advancePc_get]

end Sys2Proof.Machine
end

section
/-! PROOF. The control statements (spec/45_control.md): where an arithmetic instruction whose target is r15 leaves the PC,
the jump relative to an instruction's own address, and what an executed HALT leaves. -/

namespace Sys2Proof.Machine

/-! ### The jump -/

/-- An executed arithmetic instruction whose target is r15 leaves its result in the PC, in place of the advance (R161). -/
theorem ArithmeticEffect.resultAndFlag_pc {s t : State} {exact : Option Int} (h : ArithmeticEffect s t pcReg exact) :
    ResultAndFlag exact (t.get pcReg) t.cond := by
  obtain ⟨⟨v, hresult, hregs⟩, -⟩ := h
  have hpc : t.get pcReg = v := by simpa [show pcReg ≠ 0 by decide] using hregs pcReg
  exact hpc ▸ hresult

/-- Where the exact value is not too small for 32 bits, its result and flag turn on the upper bound alone (R109, R111). -/
theorem ResultAndFlag.of_ge {e : Int} {v : Word} {flag : CondFlag} (h : ResultAndFlag (some e) v flag)
    (hlow : -2147483648 ≤ e) : if e ≤ 2147483647 then v.toInt = e else v.toInt = 0 ∧ flag = CondFlag.V := by
  simp only [ResultAndFlag, hlow, true_and] at h
  split at h
  next hhigh => exact (if_pos hhigh).mpr h.1
  next hhigh =>
    obtain ⟨rfl, hflag⟩ := h
    exact (if_neg hhigh).mpr ⟨rfl, hflag⟩

/-- With the sources r0 and r15 the exact sum of ADD is taken from the instruction's own address (R131, R161). -/
theorem exactValue_add_zero_pc (s : State) (k : Int) :
    exactValue .add (s.left 0) (s.right pcReg k) = some (s.pc + k) := by
  simp [exactValue, State.left, State.right, State.pc, add_comm]

/-! ### HALT -/

/-- An executed HALT advances the PC and halts (R160). -/
theorem exec_halt_of_executed {s : State} {p : CondFlag} (hp : p &&& s.cond ≠ 0b0000#4) (a b d : Reg) (k : Int) :
    exec (.halt p a b d k) s = .next s.advancePc.halt :=
  exec_of_executed (i := .halt p a b d k) (CondFlag.overlaps_eq_true.mpr hp)

/-! ### The statements -/

/-- Settles O14: a decoded offset is at least -1024 and a fetched PC is not negative, so the sum can only be too large, and
the ADD leaves it, or the 0 of R111, in the PC. -/
theorem addToThePcJumpsRelativeToItsOwnAddress : Obligations.AddToThePcJumpsRelativeToItsOwnAddress := by
  intro s w p k hs hr hd hp
  obtain ⟨t, ht, heff⟩ := exec_arithmetic (op := .add) (.inl rfl) (s.observe ⟨s.pc, w, _⟩) p 0 pcReg pcReg k hp
  rw [exactValue_add_zero_pc, State.observe_pc] at heff
  have hpc : 0 ≤ s.pc := (State.validAddr_of_memRead hr).1
  have hk : -1024 ≤ k := (offsetInRange_iff.mp (wellFormed_of_decode hd)).1
  have hlow : -2147483648 ≤ s.pc + k := by omega
  exact ⟨t, (stepRunsTheDecodedInstruction s w _ hs hr hd).trans ht, heff.resultAndFlag_pc.of_ge hlow⟩

/-- Settles O19: an executed HALT is the PC advance and then STATUS halted, a skipped one the advance alone; and HALT is
opcode 6. -/
theorem haltEndsTheRunWithThePcAdvanced : Obligations.HaltEndsTheRunWithThePcAdvanced := by
  refine ⟨fun s p a b d k hp => ?_, fun s p a b d k hs hp => ?_, encodedAs_of_offsetInRange (op := .halt) (by decide)⟩
  · exact ⟨_, exec_halt_of_executed hp a b d k, rfl, rfl, s.advancePc_get, s.advancePc_cond, s.advancePc_memRead,
      ⟨s.advancePc_lastAddr, s.advancePc_trace⟩, step_of_halted rfl⟩
  · have hskip : CondFlag.overlaps (Instr.halt p a b d k).pred s.cond = false := CondFlag.overlaps_eq_false.mpr hp
    exact ⟨_, exec_of_skipped hskip, s.advancePc_status.trans hs, s.advancePc_get⟩

end Sys2Proof.Machine
end

section
/-! PROOF. The exceptions' own statements (spec/60_exceptions.md): a step that ends faulted is a raised fault of the fetch,
the decoding or the data access, from which its record and all it leaves are read; and what a step does commutes with
replacing the events already sent. -/

namespace Sys2Proof.Machine

/-! ### Every way a step ends faulted -/

/-- An executed instruction ends faulted only as a LOAD or STORE whose exact address is not valid, and is then the PC
advance and the raised MemoryFault (R172). -/
theorem Effect.dataFault_of_faulted {i : Instr} {s t : State} {r : FaultRecord} (h : Effect i s t)
    (hs : s.status = .ready) (ht : t.status = .faulted r) :
    ∃ access, (access = .load ∧ i.op = .load ∨ access = .store ∧ i.op = .store)
      ∧ ¬ s.ValidAddr (s.left i.src1 + s.right i.src2 i.offset)
      ∧ r = .memory access s.pc (s.left i.src1 + s.right i.src2 i.offset) ∧ t = s.advancePc.raise r := by
  cases h with
  | loadFault hop hea =>
    cases ht
    exact ⟨.load, .inl ⟨rfl, hop⟩, hea, rfl, rfl⟩
  | storeFault hop hea =>
    cases ht
    exact ⟨.store, .inr ⟨rfl, hop⟩, hea, rfl, rfl⟩
  | arithmetic | load | store | halt => simp [hs] at ht

/-- A step that ends faulted raised a fault of the fetch or the decoding with nothing else done, or a MemoryFault of an
executed LOAD or STORE after the event and the PC advance (R174, R176). -/
theorem step_faulted_cases {s t : State} {r : FaultRecord} (h : step s = .next t) (ht : t.status = .faulted r) :
    (s.fetchDecode = .error r ∧ t = s.raise r)
    ∨ ∃ e access, s.fetchDecode = .ok e ∧ CondFlag.overlaps e.ins.pred s.cond = true
        ∧ (access = .load ∧ e.ins.op = .load ∨ access = .store ∧ e.ins.op = .store)
        ∧ ¬ s.ValidAddr (s.left e.ins.src1 + s.right e.ins.src2 e.ins.offset)
        ∧ r = .memory access s.pc (s.left e.ins.src1 + s.right e.ins.src2 e.ins.offset)
        ∧ t = (s.observe e).advancePc.raise r := by
  obtain ⟨hs, ⟨r', hf, rfl⟩ | ⟨e, -, -, rfl⟩ | ⟨e, hf, ho, -, heff⟩⟩ := step_cases h
  · cases ht
    exact .inl ⟨hf, rfl⟩
  · simp [hs] at ht
  · obtain ⟨access, hdata⟩ := heff.dataFault_of_faulted hs ht
    exact .inr ⟨e, access, hf, ho, hdata⟩

/-- A fault of the fetch or the decoding names the instruction's address and has one of their two labels (R174). -/
theorem State.record_of_fetchDecode {s : State} {r : FaultRecord} (h : s.fetchDecode = .error r) :
    r.address = s.pc ∧ (r.code = 1 ∨ r.code = 2) := by
  rcases State.fetchDecode_error.mp h with ⟨-, rfl⟩ | ⟨w, e, -, -, rfl⟩
  · exact ⟨rfl, .inr rfl⟩
  · exact ⟨rfl, .inl rfl⟩

/-! ### The events already sent -/

/-- The state with any other list of sent events. -/
def State.withTrace (s : State) (events : List Event) : State := { s with trace := events }

theorem State.put_withTrace (s : State) (events : List Event) (i : Reg) (v : Word) :
    (s.withTrace events).put i v = (s.put i v).withTrace events := by
  unfold State.put
  split <;> rfl

theorem State.advancePc_withTrace (s : State) (events : List Event) :
    (s.withTrace events).advancePc = s.advancePc.withTrace events := s.put_withTrace ..

theorem State.arithmetic_withTrace (op : OpCode) (a b d : Reg) (k : Int) (s : State) (events : List Event) :
    (s.withTrace events).arithmetic op a b d k = (s.arithmetic op a b d k).withTrace events := by
  simp only [State.arithmetic, State.advancePc_withTrace, State.put_withTrace]
  rfl

theorem State.loadWord_withTrace (a b d : Reg) (k : Int) (s : State) (events : List Event) :
    (s.withTrace events).loadWord a b d k = (s.loadWord a b d k).withTrace events := by
  by_cases h : s.ValidAddr (s.left a + s.right b k)
  · rw [State.loadWord_of_valid h, State.loadWord_of_valid (s := s.withTrace events) h, State.advancePc_withTrace,
      State.put_withTrace]
    rfl
  · rw [State.loadWord_of_invalid h, State.loadWord_of_invalid (s := s.withTrace events) h, State.advancePc_withTrace]
    rfl

theorem State.storeWord_withTrace (a b d : Reg) (k : Int) (s : State) (events : List Event) :
    (s.withTrace events).storeWord a b d k = (s.storeWord a b d k).withTrace events := by
  by_cases h : s.ValidAddr (s.left a + s.right b k)
  · rw [State.storeWord_of_valid h, State.storeWord_of_valid (s := s.withTrace events) h, State.advancePc_withTrace]
    rfl
  · rw [State.storeWord_of_invalid h, State.storeWord_of_invalid (s := s.withTrace events) h, State.advancePc_withTrace]
    rfl

/-- No executed instruction reads or writes the events already sent (R180). -/
theorem effect_withTrace (i : Instr) (s : State) (events : List Event) :
    effect i (s.withTrace events) = (effect i s).withTrace events := by
  cases i with
  | add _ a b d k | sub _ a b d k | mul _ a b d k | div _ a b d k => exact s.arithmetic_withTrace _ a b d k events
  | load _ a b d k => exact s.loadWord_withTrace a b d k events
  | store _ a b d k => exact s.storeWord_withTrace a b d k events
  | halt => exact congrArg State.halt (s.advancePc_withTrace events)

/-! ### The statements -/

/-- Settles O25: raising changes STATUS alone, and before a data fault only the event was sent and the PC advanced, from a
valid address and so by one. -/
theorem faultsArePrecise : Obligations.FaultsArePrecise := by
  intro s t r h ht
  obtain ⟨hf, rfl⟩ | ⟨e, access, hf, -, hop, -, rfl, rfl⟩ := step_faulted_cases h ht
  · obtain ⟨haddr, hcode⟩ := State.record_of_fetchDecode hf
    exact ⟨haddr, fun q _ => s.raise_get r q, (if_pos hcode).symm, s.raise_cond r, s.raise_memRead r,
      step_of_faulted ht⟩
  · obtain ⟨hregs, hcond, -, hmem, -⟩ := (s.observe e).advancePc_raise_dataFaultEffect access
      (s.left e.ins.src1 + s.right e.ins.src2 e.ins.offset)
    have hpc : (s.observe e).advancePc.pc = s.pc + 1 :=
      State.advancePc_pc (s := s.observe e) (State.validAddr_of_fetchDecode hf)
    refine ⟨rfl, fun q hq => (hregs q).trans (if_neg hq), ?_, hcond, hmem, step_of_faulted ht⟩
    obtain ⟨rfl, -⟩ | ⟨rfl, -⟩ := hop <;> exact hpc

/-- Settles O26: each of the four records is raised at one place alone, behind the stages before it. -/
theorem faultRecordTellsTheFirstFailingStage : Obligations.FaultRecordTellsTheFirstFailingStage := by
  intro s t r h ht
  obtain ⟨hf, -⟩ | ⟨e, access, hf, ho, hop, hea, rfl, -⟩ := step_faulted_cases h ht
  · obtain ⟨hinvalid, rfl⟩ | ⟨w, e, hr, hd, rfl⟩ := State.fetchDecode_error.mp hf
    · exact ⟨rfl, rfl, hinvalid⟩
    · exact ⟨rfl, hr, Nat.not_le.mp (exists_decode_eq_error.mp ⟨e, hd⟩)⟩
  · obtain ⟨-, hr, hd⟩ := State.fetchDecode_ok.mp hf
    have hpred := CondFlag.overlaps_eq_true.mp ho
    obtain ⟨rfl, hop⟩ | ⟨rfl, hop⟩ := hop <;> exact ⟨rfl, hea, e.word, e.ins, hr, hd, hop, hpred, rfl⟩

/-- Settles O32: fetch, decode and the predication test do not read the events, and the PC advance and every effect
commute with replacing them. -/
theorem observersDoNotAffectExecution : Obligations.ObserversDoNotAffectExecution := by
  intro s t events h
  change ∃ events', step (s.withTrace events) = .next (t.withTrace events')
  obtain ⟨hs, ⟨r, hf, rfl⟩ | ⟨e, hf, ho, rfl⟩ | ⟨e, hf, ho, rfl, -⟩⟩ := step_cases h
  · exact ⟨events, step_of_fetchDecode_error (s := s.withTrace events) hs hf⟩
  · refine ⟨e :: events, (step_of_skipped (s := s.withTrace events) hs hf ho).trans ?_⟩
    exact congrArg _ ((s.observe e).advancePc_withTrace (e :: events))
  · refine ⟨e :: events, (step_of_executed (s := s.withTrace events) hs hf ho).trans ?_⟩
    exact congrArg _ (effect_withTrace e.ins (s.observe e) (e :: events))

end Sys2Proof.Machine
end

section
/-! PROOF. The statements about a run (spec/70_reset_and_hazards.md): what its start leaves, how its loop divides into
shorter ones, and what each step keeps lifted to the whole loop. -/

namespace Sys2Proof.Machine

/-! ### The start of a run -/

/-- The start of a run sends no event and keeps the memory and its size (R192). -/
theorem State.startRun_kept {s t : State} {start : Int} (h : s.startRun start = some t) :
    MemKept s t ∧ OutsideKept s t := by
  obtain ⟨-, rfl⟩ := State.startRun_eq_some.mp h
  exact ⟨fun a => by simp, by simp, by simp⟩

/-- A run started over a legal memory starts in a state that meets the invariant. -/
theorem State.startRun_inv {s t : State} {start : Int} (hs : s.MemLegal) (h : s.startRun start = some t) : t.Inv := by
  obtain ⟨-, -, -, hcond, -, hstatus, hmem⟩ := powerOnAndRunStartLeaveTheSpecsValues.2 s t start h
  obtain ⟨-, hlast, -⟩ := State.startRun_kept h
  exact ⟨hs.congr hmem hlast, .inl hcond, State.statusTrue_of_ready hstatus⟩

/-! ### The loop of a run -/

/-- One turn of the loop takes the engine's step, when there is one (R192). -/
theorem State.runLoop_succ_of_step {s t : State} (h : step s = .next t) (n : Nat) :
    State.runLoop (n + 1) s = State.runLoop n t := by
  simp only [State.runLoop, h]

/-- Where STATUS is not ready the loop stands still (R136, R194). -/
theorem State.runLoop_of_not_ready {s : State} (h : s.status ≠ .ready) (n : Nat) : State.runLoop n s = s := by
  cases n with
  | zero => rfl
  | succ n =>
    cases hs : s.status with
    | ready => exact absurd hs h
    | halted => simp only [State.runLoop, step_of_halted hs]
    | faulted r => simp only [State.runLoop, step_of_faulted hs]

/-- A loop of `n + m` turns is one of `n` and then one of `m`. -/
theorem State.runLoop_add (n m : Nat) (s : State) :
    State.runLoop (n + m) s = State.runLoop m (State.runLoop n s) := by
  induction n generalizing s with
  | zero => rw [Nat.zero_add, State.runLoop]
  | succ n ih =>
    by_cases hs : s.status = .ready
    · obtain ⟨t, ht⟩ := exists_step_of_ready hs
      rw [Nat.add_right_comm, State.runLoop_succ_of_step ht, State.runLoop_succ_of_step ht, ih]
    · simp only [State.runLoop_of_not_ready hs]

/-- What every step keeps, the loop keeps. -/
theorem State.runLoop_of_step_keeps {P : State → Prop} (hstep : ∀ s t, P s → step s = .next t → P t) (n : Nat)
    {s : State} (hs : P s) : P (State.runLoop n s) := by
  induction n generalizing s with
  | zero => exact hs
  | succ n ih =>
    by_cases hready : s.status = .ready
    · obtain ⟨t, ht⟩ := exists_step_of_ready hready
      rw [State.runLoop_succ_of_step ht]
      exact ih (hstep s t hs ht)
    · rwa [State.runLoop_of_not_ready hready]

/-! ### The statements -/

/-- Settles O37: the further turns are a loop of their own, begun where the first turns end; it stands still unless STATUS
is ready there, and one turn of it is then one step. -/
theorem runEndsExactlyWhenStatusLeavesReady : Obligations.RunEndsExactlyWhenStatusLeavesReady := by
  refine ⟨fun s n m h => ?_, fun s n h => ?_⟩
  · rw [State.runLoop_add, State.runLoop_of_not_ready h]
  · obtain ⟨t, ht⟩ := exists_step_of_ready h
    rw [State.runLoop_add, State.runLoop_succ_of_step ht, State.runLoop, ht]

/-- Settles O38: the start of the run meets the invariant, and every step of its loop keeps it (O33). -/
theorem everyStateOfARunMeetsTheInvariant : Obligations.EveryStateOfARunMeetsTheInvariant := by
  intro s t start n hs h
  obtain ⟨u, hu, rfl⟩ := Option.map_eq_some_iff.mp h
  exact State.runLoop_of_step_keeps (fun _ _ hinv hst => (stepKeepsTheInvariant _ _ hinv hst).1) n
    (State.startRun_inv hs hu)

/-- Settles O36: a start address that fits starts a run, which leaves what O35 says and keeps the rest; no other does. -/
theorem runStartResetsStatusCondAndPc : Obligations.RunStartResetsStatusCondAndPc := by
  intro s start
  split
  next hfits =>
    have hstart := State.startRun_eq_some (s := s).mpr ⟨hfits, rfl⟩
    obtain ⟨-, hregs, hpc, hcond, hhalted, hstatus, -⟩ := powerOnAndRunStartLeaveTheSpecsValues.2 s _ start hstart
    exact ⟨_, hstart, hstatus, hhalted, hcond, hpc, hregs, State.startRun_kept hstart⟩
  next hfits => exact if_neg hfits

end Sys2Proof.Machine
end
